-- ==== Sys2Proof/Word.lean ====
section
/-! DEFINITION. The machine's word types: a byte of memory, a 64-bit word (addresses, general registers, opmask
registers) and the whole vector register of MAX_VL = 512 bits (00_scope.md R8, R9). -/

namespace Sys2Proof

/-- One byte of memory or of an instruction (10_state.md R150). -/
abbrev Byte := BitVec 8

/-- A 64-bit value: a linear address, `rip`, a general or an opmask register (10_state.md R110, R120, R121). -/
abbrev Word := BitVec 64

/-- A whole vector register, MAX_VL = 512 bits (00_scope.md R8; 10_state.md R100). -/
abbrev Zmm := BitVec 512

end Sys2Proof
end

