-- ==== Sys2Proof/Config.lean ====
section
/-! DEFINITION. What an implementation fixes: the constants of 00_scope.md R8, and the types of the parameters R8
leaves to the model (the feature flags and the oracle Access). The parameters' VALUES are fields of State, so that a
claim about every state is a claim about every value of them. The source calls no value undefined
(93_implementation_defined.md section 1), so there is no free value and no opaque constant here. -/

namespace Sys2Proof

/-- MAX_INSN_LEN: the longest legal instruction in bytes (00_scope.md R8). -/
def Config.maxInsnLen : Nat := 15

/-- The four CPUID feature flags of the opcode table (00_scope.md R2, R8; 10_state.md R140). -/
structure Features where
  /-- HAS_AVX -/
  avx : Bool
  /-- HAS_AVX512F -/
  avx512f : Bool
  /-- HAS_AVX512VL -/
  avx512vl : Bool
  /-- HAS_AVX512DQ -/
  avx512dq : Bool
  deriving DecidableEq, Repr

/-- One row of the table that stands for the oracle Access (20_memory.md R230): a store of `bytes` bytes whose linear
address lies between `first` and `last`, both included, is refused with a page fault. Log 7. -/
structure AccessRule where
  first : Word
  last : Word
  bytes : Nat
  /-- the error code, its write bit aside (60_exceptions.md R608); log 17 -/
  code : BitVec 32
  /-- the byte the fault reports, where it lies in the operand; else the operand's first byte. Log 17 -/
  addr : Option Word
  deriving DecidableEq, Repr

/-- What Access answers (20_memory.md R230). -/
inductive AccessAnswer where
  | ok
  | pageFault (code : BitVec 32) (addr : Word)
  deriving DecidableEq, Repr

end Sys2Proof
end

