-- ==== Sys2Proof/Syntax.lean ====
section
/-! DEFINITION. The instructions: one constructor of `Instr` per row of spec/opcode_table.json (30_encoding.md R330),
with the operands of 30_encoding.md R310 to R320 and 20_memory.md R221. -/

namespace Sys2Proof

/-- A legacy prefix byte that may stand before the VEX or EVEX bytes (30_encoding.md R301). -/
inductive LegacyPrefix where
  /-- byte 26 -/
  | es
  /-- byte 2E -/
  | cs
  /-- byte 36 -/
  | ss
  /-- byte 3E -/
  | ds
  /-- byte 64 -/
  | fs
  /-- byte 65 -/
  | gs
  /-- byte 67, the address-size byte -/
  | addrSize
  deriving DecidableEq, Repr

/-- The displacement beside a base register: absent, one byte (scaled by N, 20_memory.md R222) or four (unscaled). -/
inductive Disp where
  | absent
  | disp8 (d : Byte)
  | disp32 (d : BitVec 32)
  deriving DecidableEq, Repr

/-- A memory destination in the shapes of 20_memory.md R221. Register numbers are the four bits `B ++ rm`, `B ++ base`
and `X ++ index`; index 0100b stands for no index. -/
inductive MemOp where
  /-- no SIB byte: `[base + disp]` -/
  | base (b : BitVec 4) (d : Disp)
  /-- no SIB byte, mod = 00b, rm = 101b: `[rip + disp32]` -/
  | ripRel (d : BitVec 32)
  /-- SIB byte: `[base + index * 2^scale + disp]` -/
  | sib (b : BitVec 4) (index : BitVec 4) (scale : BitVec 2) (d : Disp)
  /-- SIB byte, mod = 00b, base = 101b: `[index * 2^scale + disp32]` -/
  | sibNoBase (index : BitVec 4) (scale : BitVec 2) (d : BitVec 32)
  deriving DecidableEq, Repr

/-- The destination operand in ModRM:r/m (30_encoding.md R310): a vector register number of `w` bits (4 under VEX,
R313; 5 under EVEX, R314) or memory. -/
inductive Dst (w : Nat) where
  | reg (d : BitVec w)
  | mem (m : MemOp)
  deriving DecidableEq, Repr

/-- The writemask field `aaa` (000b: no writemask, R317) and the masking kind `z` (true: zeroing, R318). -/
structure WriteMask where
  aaa : BitVec 3
  z : Bool
  deriving DecidableEq, Repr

/-- The seven encodings (30_encoding.md R330, in the table's order). `pre` are the legacy prefixes in byte order. -/
inductive Instr where
  /-- row 1: VEXTRACTF128 xmm1/m128, ymm2, imm8 -/
  | vextractf128 (pre : List LegacyPrefix) (dst : Dst 4) (src : BitVec 4) (imm : Byte)
  /-- row 2: VEXTRACTF32x4 xmm1/m128 {k1}{z}, ymm2, imm8 -/
  | vextractf32x4Ymm (pre : List LegacyPrefix) (wm : WriteMask) (dst : Dst 5) (src : BitVec 5) (imm : Byte)
  /-- row 3: VEXTRACTF32x4 xmm1/m128 {k1}{z}, zmm2, imm8 -/
  | vextractf32x4Zmm (pre : List LegacyPrefix) (wm : WriteMask) (dst : Dst 5) (src : BitVec 5) (imm : Byte)
  /-- row 4: VEXTRACTF64x2 xmm1/m128 {k1}{z}, ymm2, imm8 -/
  | vextractf64x2Ymm (pre : List LegacyPrefix) (wm : WriteMask) (dst : Dst 5) (src : BitVec 5) (imm : Byte)
  /-- row 5: VEXTRACTF64x2 xmm1/m128 {k1}{z}, zmm2, imm8 -/
  | vextractf64x2Zmm (pre : List LegacyPrefix) (wm : WriteMask) (dst : Dst 5) (src : BitVec 5) (imm : Byte)
  /-- row 6: VEXTRACTF32x8 ymm1/m256 {k1}{z}, zmm2, imm8 -/
  | vextractf32x8 (pre : List LegacyPrefix) (wm : WriteMask) (dst : Dst 5) (src : BitVec 5) (imm : Byte)
  /-- row 7: VEXTRACTF64x4 ymm1/m256 {k1}{z}, zmm2, imm8 -/
  | vextractf64x4 (pre : List LegacyPrefix) (wm : WriteMask) (dst : Dst 5) (src : BitVec 5) (imm : Byte)
  deriving DecidableEq, Repr

end Sys2Proof
end

