-- ==== Sys2Proof/Decode.lean ====
section
/-! DEFINITION. Decoding (30_encoding.md R300 to R341): a total function from bytes to an instruction or a named
rejection; after it the encoder, written from the same layouts, and the lengths of R300. -/

namespace Sys2Proof

/-! ## Lengths (30_encoding.md R300) -/

/-- Bytes a displacement takes. -/
def Disp.length : Disp → Nat
  | .absent => 0
  | .disp8 _ => 1
  | .disp32 _ => 4

/-- Bytes of SIB and displacement. -/
def MemOp.length : MemOp → Nat
  | .base _ d => d.length
  | .ripRel _ => 4
  | .sib _ _ _ d => 1 + d.length
  | .sibNoBase _ _ _ => 5

/-- Bytes of SIB and displacement of a destination. -/
def Dst.length {w : Nat} : Dst w → Nat
  | .reg _ => 0
  | .mem m => m.length

/-- VEXTRACTF128: the legacy prefixes, three bytes of VEX, opcode, ModRM, SIB and displacement, imm8. -/
def vexLength (pre : List LegacyPrefix) (dst : Dst 4) : Nat := pre.length + 6 + dst.length

/-- The EVEX encodings: the legacy prefixes, four bytes of EVEX, opcode, ModRM, SIB and displacement, imm8. -/
def evexLength (pre : List LegacyPrefix) (dst : Dst 5) : Nat := pre.length + 7 + dst.length

/-- The length `len` of an instruction in bytes. -/
def Instr.length : Instr → Nat
  | .vextractf128 pre dst _ _ => vexLength pre dst
  | .vextractf32x4Ymm pre _ dst _ _ => evexLength pre dst
  | .vextractf32x4Zmm pre _ dst _ _ => evexLength pre dst
  | .vextractf64x2Ymm pre _ dst _ _ => evexLength pre dst
  | .vextractf64x2Zmm pre _ dst _ _ => evexLength pre dst
  | .vextractf32x8 pre _ dst _ _ => evexLength pre dst
  | .vextractf64x4 pre _ dst _ _ => evexLength pre dst

/-- Zeroing needs a writemask and a register destination (30_encoding.md R341, R318; 20_memory.md R211). -/
def WriteMask.legal (wm : WriteMask) (dst : Dst 5) : Bool :=
  match dst with
  | .reg _ => !wm.z || wm.aaa != 0#3
  | .mem _ => !wm.z

/-! ## Decoding -/

/-- The verdicts of 30_encoding.md R332, and one of the model's own. -/
inductive Decoded where
  /-- a row of R330 with its operands -/
  | instr (i : Instr)
  /-- an encoding the spec says raises #UD (R301, R340, R341) -/
  | undefinedOpcode
  /-- longer than 15 bytes: #GP(0) (R300, R332 step 5) -/
  | tooLong
  /-- bytes that are none of the five mnemonics (R332, R341): the model refuses -/
  | outOfScope
  /-- fewer than 15 bytes were given and the instruction goes on past them -/
  | truncated
  deriving DecidableEq, Repr

/-- The legacy prefix a byte is, of those R301 allows. -/
def legacyPrefixOf (b : Byte) : Option LegacyPrefix :=
  if b = 0x26#8 then some .es
  else if b = 0x2E#8 then some .cs
  else if b = 0x36#8 then some .ss
  else if b = 0x3E#8 then some .ds
  else if b = 0x64#8 then some .fs
  else if b = 0x65#8 then some .gs
  else if b = 0x67#8 then some .addrSize
  else none

/-- 66, F2, F3, F0 or a REX byte 40 to 4F: must not stand before VEX or EVEX (R301). -/
def forbiddenPrefix (b : Byte) : Bool :=
  b == 0x66#8 || b == 0xF2#8 || b == 0xF3#8 || b == 0xF0#8 || b.extractLsb' 4 4 == 4#4

/-- The allowed prefixes at the front, whether a forbidden one stands among them, and the bytes after (R332 step 1). -/
def scanPrefixes : List Byte → List LegacyPrefix × Bool × List Byte
  | [] => ([], false, [])
  | b :: bs =>
    match legacyPrefixOf b with
    | some p => (p :: (scanPrefixes bs).1, (scanPrefixes bs).2.1, (scanPrefixes bs).2.2)
    | none =>
      if forbiddenPrefix b then ((scanPrefixes bs).1, true, (scanPrefixes bs).2.2)
      else ([], false, b :: bs)

/-- Four bytes, least significant first (20_memory.md R202). -/
def takeDisp32 : List Byte → Option (BitVec 32 × List Byte)
  | d0 :: d1 :: d2 :: d3 :: bs => some (d3 ++ d2 ++ d1 ++ d0, bs)
  | _ => none

/-- The displacement that `mod` calls for beside a base register (20_memory.md R221). -/
def takeDisp (mod : BitVec 2) (bs : List Byte) : Option (Disp × List Byte) :=
  if mod = 0b01#2 then
    match bs with
    | d :: bs => some (.disp8 d, bs)
    | [] => none
  else if mod = 0b10#2 then (takeDisp32 bs).map fun r => (.disp32 r.1, r.2)
  else some (.absent, bs)

/-- The memory operand after a ModRM byte with `mod` not 11b (20_memory.md R221; 30_encoding.md R311, R312). `x` and
`b` are the register-extension bits, un-inverted. -/
def takeMem (x b : Bool) (mod : BitVec 2) (rm : BitVec 3) (bs : List Byte) : Option (MemOp × List Byte) :=
  if rm = 0b100#3 then
    match bs with
    | [] => none
    | s :: bs =>
      let scale := s.extractLsb' 6 2
      let index := BitVec.ofBool x ++ s.extractLsb' 3 3
      let base := s.extractLsb' 0 3
      if mod = 0b00#2 ∧ base = 0b101#3 then
        (takeDisp32 bs).map fun r => (.sibNoBase index scale r.1, r.2)
      else (takeDisp mod bs).map fun r => (.sib (BitVec.ofBool b ++ base) index scale r.1, r.2)
  else if mod = 0b00#2 ∧ rm = 0b101#3 then (takeDisp32 bs).map fun r => (.ripRel r.1, r.2)
  else (takeDisp mod bs).map fun r => (.base (BitVec.ofBool b ++ rm) r.1, r.2)

/-- The destination: a register (mod = 11b), whose number `regNo` makes of the rm field, or memory (R310). -/
def takeDst {w : Nat} (regNo : BitVec 3 → BitVec w) (x b : Bool) (mod : BitVec 2) (rm : BitVec 3) (bs : List Byte) :
    Option (Dst w × List Byte) :=
  if mod = 0b11#2 then some (.reg (regNo rm), bs)
  else (takeMem x b mod rm bs).map fun r => (.mem r.1, r.2)

/-- ModRM, SIB, displacement and immediate (R300): the reg field, the destination and imm8. -/
def readOperands {w : Nat} (regNo : BitVec 3 → BitVec w) (x b : Bool) :
    List Byte → Option (BitVec 3 × Dst w × Byte)
  | [] => none
  | modrm :: bs =>
    match takeDst regNo x b (modrm.extractLsb' 6 2) (modrm.extractLsb' 0 3) bs with
    | some (dst, imm :: _) => some (modrm.extractLsb' 3 3, dst, imm)
    | _ => none

/-- The verdict when the bytes end before the instruction does: over 15 bytes when 15 were there (`full`), which
outranks #UD (60_exceptions.md R620); #UD when the bytes read so far already say so (`bad`). Log 12. -/
def ranOut (full bad : Bool) : Decoded :=
  if full then .tooLong else if bad then .undefinedOpcode else .truncated

/-- After `C4`: VEX bytes 1 and 2, the opcode and the operands (R302, R332 step 2). -/
def decodeVex (full : Bool) (pre : List LegacyPrefix) : List Byte → Decoded
  | b1 :: b2 :: op :: bs =>
    let r := !b1.getLsbD 7
    let x := !b1.getLsbD 6
    let b := !b1.getLsbD 5
    if b1.extractLsb' 0 5 = 0b00011#5 ∧ b2.extractLsb' 0 2 = 0b01#2 ∧ op = 0x19#8 then
      -- VEX.L = 0 and vvvv (R340), W = 1 (R341)
      let bad := !b2.getLsbD 2 || b2.extractLsb' 3 4 != 0b1111#4 || b2.getLsbD 7
      match readOperands (fun rm => (BitVec.ofBool b ++ rm : BitVec 4)) x b bs with
      | none => ranOut full bad
      | some (reg, dst, imm) =>
        if bad then .undefinedOpcode else .instr (.vextractf128 pre dst (BitVec.ofBool r ++ reg) imm)
    else .outOfScope
  | _ => ranOut full false

/-- The row that the opcode, W and L'L fix (R319, R330, R332 step 3). -/
def evexRow (op : Byte) (w : Bool) (ll : BitVec 2) :
    Option (List LegacyPrefix → WriteMask → Dst 5 → BitVec 5 → Byte → Instr) :=
  if op = 0x19#8 then
    if ll = 0b01#2 then some (if w then .vextractf64x2Ymm else .vextractf32x4Ymm)
    else if ll = 0b10#2 then some (if w then .vextractf64x2Zmm else .vextractf32x4Zmm)
    else none
  else if op = 0x1B#8 then
    if ll = 0b10#2 then some (if w then .vextractf64x4 else .vextractf32x8)
    else none
  else none

/-- Zeroing with a memory destination or with no writemask (R341), as soon as the ModRM byte is read (R332 step 3). -/
def zeroingBad (wm : WriteMask) : List Byte → Bool
  | [] => false
  | modrm :: _ => wm.z && (modrm.extractLsb' 6 2 != 0b11#2 || wm.aaa == 0#3)

/-- After `62`: P0, P1, P2, the opcode and the operands (R305, R332 step 3). -/
def decodeEvex (full : Bool) (pre : List LegacyPrefix) : List Byte → Decoded
  | p0 :: p1 :: p2 :: op :: bs =>
    let r := !p0.getLsbD 7
    let x := !p0.getLsbD 6
    let b := !p0.getLsbD 5
    let r' := !p0.getLsbD 4
    -- P0[3:2] and U (R341)
    let reservedBad := p0.extractLsb' 2 2 != 0b00#2 || !p1.getLsbD 2
    if p0.extractLsb' 0 2 = 0b11#2 ∧ p1.extractLsb' 0 2 = 0b01#2 ∧ (op = 0x19#8 ∨ op = 0x1B#8) then
      let wm : WriteMask := { aaa := p2.extractLsb' 0 3, z := p2.getLsbD 7 }
      -- vvvv (R340); V', b and z (R341)
      let bad := reservedBad || p1.extractLsb' 3 4 != 0b1111#4 || !p2.getLsbD 3 || p2.getLsbD 4 || zeroingBad wm bs
      match evexRow op (p1.getLsbD 7) (p2.extractLsb' 5 2),
          readOperands (fun rm => (BitVec.ofBool x ++ BitVec.ofBool b ++ rm : BitVec 5)) x b bs with
      | none, none => ranOut full true -- L'L (R341)
      | none, some _ => .undefinedOpcode
      | some _, none => ranOut full bad
      | some mk, some (reg, dst, imm) =>
        if bad then .undefinedOpcode
        else .instr (mk pre wm dst (BitVec.ofBool r' ++ BitVec.ofBool r ++ reg) imm)
    else if reservedBad then .undefinedOpcode
    else .outOfScope
  | _ => ranOut full false

/-- A forbidden byte before VEX or EVEX raises #UD (R301, R341); only an excess length outranks it (R620). -/
def Decoded.afterForbidden : Decoded → Decoded
  | .tooLong => .tooLong
  | .instr _ => .undefinedOpcode
  | .undefinedOpcode => .undefinedOpcode
  | .outOfScope => .undefinedOpcode
  | .truncated => .undefinedOpcode

/-- The decoder, total on any bytes (R332). It reads at most the first 15. -/
def decode (bytes : List Byte) : Decoded :=
  let full := decide (Config.maxInsnLen ≤ bytes.length)
  let scan := scanPrefixes (bytes.take Config.maxInsnLen)
  match scan.2.2 with
  | [] => ranOut full false
  | b :: bs =>
    if b = 0xC4#8 then
      if scan.2.1 then (decodeVex full scan.1 bs).afterForbidden else decodeVex full scan.1 bs
    else if b = 0x62#8 then
      if scan.2.1 then (decodeEvex full scan.1 bs).afterForbidden else decodeEvex full scan.1 bs
    else .outOfScope

/-! ## Encoding -/

/-- The byte of a legacy prefix (R301). -/
def LegacyPrefix.byte : LegacyPrefix → Byte
  | .es => 0x26#8
  | .cs => 0x2E#8
  | .ss => 0x36#8
  | .ds => 0x3E#8
  | .fs => 0x64#8
  | .gs => 0x65#8
  | .addrSize => 0x67#8

/-- A 32-bit displacement, least significant byte first (20_memory.md R202). -/
def bytesOfDisp32 (d : BitVec 32) : List Byte :=
  [d.extractLsb' 0 8, d.extractLsb' 8 8, d.extractLsb' 16 8, d.extractLsb' 24 8]

/-- The mod field a displacement beside a base register calls for (20_memory.md R221). -/
def Disp.mod : Disp → BitVec 2
  | .absent => 0b00#2
  | .disp8 _ => 0b01#2
  | .disp32 _ => 0b10#2

/-- The bytes of a displacement. -/
def Disp.bytes : Disp → List Byte
  | .absent => []
  | .disp8 d => [d]
  | .disp32 d => bytesOfDisp32 d

/-- What a destination puts into ModRM, into the register-extension bits and after ModRM. -/
structure RmFields where
  mod : BitVec 2
  rm : BitVec 3
  x : Bool
  b : Bool
  rest : List Byte
  deriving DecidableEq, Repr

/-- The fields of a memory destination (20_memory.md R221). An ignored extension bit is encoded as 0 (log 14). -/
def MemOp.rmFields : MemOp → RmFields
  | .base b d =>
    { mod := d.mod, rm := b.extractLsb' 0 3, x := false, b := b.getLsbD 3, rest := d.bytes }
  | .ripRel d =>
    { mod := 0b00#2, rm := 0b101#3, x := false, b := false, rest := bytesOfDisp32 d }
  | .sib b index scale d =>
    { mod := d.mod, rm := 0b100#3, x := index.getLsbD 3, b := b.getLsbD 3,
      rest := (scale ++ index.extractLsb' 0 3 ++ b.extractLsb' 0 3) :: d.bytes }
  | .sibNoBase index scale d =>
    { mod := 0b00#2, rm := 0b100#3, x := index.getLsbD 3, b := false,
      rest := (scale ++ index.extractLsb' 0 3 ++ 0b101#3) :: bytesOfDisp32 d }

/-- The fields of a destination (R310, R313, R314): bit 3 of a register number goes to `B`, bit 4 to `X`. -/
def Dst.rmFields {w : Nat} : Dst w → RmFields
  | .reg d => { mod := 0b11#2, rm := d.extractLsb' 0 3, x := d.getLsbD 4, b := d.getLsbD 3, rest := [] }
  | .mem m => m.rmFields

/-- ModRM, SIB, displacement and immediate (R300, R310). -/
def operandBytes (reg : BitVec 3) (f : RmFields) (imm : Byte) : List Byte :=
  (f.mod ++ reg ++ f.rm : BitVec 8) :: (f.rest ++ [imm])

/-- VEXTRACTF128 (R302, R304): `C4`, `R X B 00011` inverted, `0 1111 1 01`, opcode 19, operands. -/
def encodeVex (pre : List LegacyPrefix) (dst : Dst 4) (src : BitVec 4) (imm : Byte) : List Byte :=
  let f := dst.rmFields
  pre.map LegacyPrefix.byte ++
    [0xC4#8,
      BitVec.ofBool (!src.getLsbD 3) ++ BitVec.ofBool (!f.x) ++ BitVec.ofBool (!f.b) ++ 0b00011#5,
      0b01111101#8,
      0x19#8] ++
    operandBytes (src.extractLsb' 0 3) f imm

/-- An EVEX encoding (R305, R306): `62`, P0 = `R X B R'` inverted `0011`, P1 = `W 1111 1 01`, P2 = `z L'L 0 1 aaa`,
the opcode, operands. -/
def encodeEvex (op : Byte) (w : Bool) (ll : BitVec 2) (pre : List LegacyPrefix) (wm : WriteMask) (dst : Dst 5)
    (src : BitVec 5) (imm : Byte) : List Byte :=
  let f := dst.rmFields
  pre.map LegacyPrefix.byte ++
    [0x62#8,
      BitVec.ofBool (!src.getLsbD 3) ++ BitVec.ofBool (!f.x) ++ BitVec.ofBool (!f.b) ++
        BitVec.ofBool (!src.getLsbD 4) ++ 0b0011#4,
      BitVec.ofBool w ++ 0b1111101#7,
      BitVec.ofBool wm.z ++ ll ++ 0b01#2 ++ wm.aaa,
      op] ++
    operandBytes (src.extractLsb' 0 3) f imm

/-- The bytes of an instruction, lowest address first (R330, R331). -/
def encode : Instr → List Byte
  | .vextractf128 pre dst src imm => encodeVex pre dst src imm
  | .vextractf32x4Ymm pre wm dst src imm => encodeEvex 0x19#8 false 0b01#2 pre wm dst src imm
  | .vextractf32x4Zmm pre wm dst src imm => encodeEvex 0x19#8 false 0b10#2 pre wm dst src imm
  | .vextractf64x2Ymm pre wm dst src imm => encodeEvex 0x19#8 true 0b01#2 pre wm dst src imm
  | .vextractf64x2Zmm pre wm dst src imm => encodeEvex 0x19#8 true 0b10#2 pre wm dst src imm
  | .vextractf32x8 pre wm dst src imm => encodeEvex 0x1B#8 false 0b10#2 pre wm dst src imm
  | .vextractf64x4 pre wm dst src imm => encodeEvex 0x1B#8 true 0b10#2 pre wm dst src imm

/-! ## The opcode table's numbering of bits -/

/-- The first 15 bytes of an instruction whose bits are `w`: byte `i` is bits `8i+7` to `8i`, bytes from `nbits / 8` on
are 0 (log 18). -/
def tableBytes (nbits w : Nat) : List Byte :=
  (List.range Config.maxInsnLen).map fun i => if i < nbits / 8 then BitVec.ofNat 8 (w >>> (8 * i)) else 0#8

/-- What the decoder reads from an instruction whose bits are `w`. -/
def decodeTableWord (nbits w : Nat) : Option Instr :=
  match decode (tableBytes nbits w) with
  | .instr i => some i
  | _ => none

end Sys2Proof
end

