-- ==== Sys2Proof/WellFormed.lean ====
section
/-! DEFINITION. Which terms of `Instr` an encoding exists for: the side conditions of 20_memory.md R221 (the field
values that mean SIB, RIP-relative or no base), of 30_encoding.md R341 (zeroing) and the length limit of R300. -/

namespace Sys2Proof

/-- A memory operand has an encoding (20_memory.md R221): rm = 100b means a SIB byte, so it is no plain base; with
mod = 00b, rm = 101b means RIP-relative and base = 101b means no base, whatever `B` is. -/
def MemOp.wf : MemOp → Bool
  | .base b d => b.extractLsb' 0 3 != 0b100#3 && (d != .absent || b.extractLsb' 0 3 != 0b101#3)
  | .ripRel _ => true
  | .sib b _ _ d => d != .absent || b.extractLsb' 0 3 != 0b101#3
  | .sibNoBase _ _ _ => true

/-- A destination has an encoding. -/
def Dst.wf {w : Nat} : Dst w → Bool
  | .reg _ => true
  | .mem m => m.wf

/-- An EVEX operand set has an encoding and is at most 15 bytes long. -/
def evexWf (pre : List LegacyPrefix) (wm : WriteMask) (dst : Dst 5) : Bool :=
  dst.wf && wm.legal dst && decide (evexLength pre dst ≤ Config.maxInsnLen)

/-- The instruction has an encoding that the spec gives a meaning. -/
def Instr.wf : Instr → Bool
  | .vextractf128 pre dst _ _ => dst.wf && decide (vexLength pre dst ≤ Config.maxInsnLen)
  | .vextractf32x4Ymm pre wm dst _ _ => evexWf pre wm dst
  | .vextractf32x4Zmm pre wm dst _ _ => evexWf pre wm dst
  | .vextractf64x2Ymm pre wm dst _ _ => evexWf pre wm dst
  | .vextractf64x2Zmm pre wm dst _ _ => evexWf pre wm dst
  | .vextractf32x8 pre wm dst _ _ => evexWf pre wm dst
  | .vextractf64x4 pre wm dst _ _ => evexWf pre wm dst

end Sys2Proof
end

