-- ==== Sys2Proof/Machine/State.lean ====
section
/-! DEFINITION. The machine's state as plain data (10_state.md R100 to R170; INVENTORY.md lists every field with its
rule), the faults of 60_exceptions.md R610, the refusals, the canonical form of memory, and the state after reset. -/

namespace Sys2Proof.Machine

/-- The kinds of fault an in-scope instruction can raise (60_exceptions.md R610). #AC is in that table with "raised by
none" (R609) and has no constructor. -/
inductive FaultKind where
  /-- #UD, invalid opcode, vector 6 -/
  | invalidOpcode
  /-- #NM, device not available, vector 7 -/
  | deviceNotAvailable
  /-- #SS, stack fault, vector 12 -/
  | stackFault
  /-- #GP, general protection, vector 13 -/
  | generalProtection
  /-- #PF, page fault, vector 14 -/
  | pageFault
  deriving DecidableEq, Repr

/-- The record of a fault: `Fault(kind, error code, address)` (60_exceptions.md R630). -/
structure FaultRecord where
  kind : FaultKind
  code : Option (BitVec 32)
  addr : Option Word
  deriving DecidableEq, Repr

/-- Why a step stops with a fault. -/
inductive Fault where
  /-- An exception of R610, raised by decoding (in `step`) and by every meaning through `raise`. It is the spec's own
  terminal outcome (R630), so it is no departure: safe. -/
  | raised (r : FaultRecord)
  /-- `step`: the instruction needs a byte at `addr` that nothing has written, and such a byte has no value (log 8).
  Safe: the hardware would fetch some byte and go on. -/
  | fetchUnwritten (addr : Word)
  deriving DecidableEq, Repr

/-- Why the model gives no meaning. -/
inductive Refusal where
  /-- `exec`, for an instruction that has no meaning yet. Safe: nothing is claimed of it. -/
  | notModelled (mnemonic : String)
  /-- `step`: the bytes are none of the five mnemonics (30_encoding.md R332, R341). Safe. -/
  | outOfScope
  /-- `step` outside 64-bit mode, and the meanings in the 32-bit modes: the spec has no decoding rules and no rules of
  execution there (00_scope.md R6(c); 92_eei_decisions.md D1). Safe. -/
  | modeOutOfScope
  /-- Every meaning, when `rip + len` wraps or `rip` or `rip + len` is not canonical: 10_state.md R121 has the model
  refuse such a placement. Safe. -/
  | placement
  /-- `step`, when the instruction holds the byte at `addr`, which an in-scope store has written: 20_memory.md R243 has
  the model refuse such a run. Safe. -/
  | selfModifying (addr : Word)
  deriving DecidableEq, Repr

/-- Operating modes (60_exceptions.md R605, R640). The spec models 64-bit mode (00_scope.md R8); log 4. -/
inductive Mode where
  | real
  | virtual8086
  | legacyProtected
  | compatibility
  | long64
  deriving DecidableEq, Repr

/-! ## Memory as data -/

/-- The bytes of the linear address space that have a value (10_state.md R150), in rising order of address. -/
abbrev Memory := List Host.Cell

/-- Numbers in strictly rising order, all above `lo` where there is a `lo`. -/
def risingFrom (lo : Option Nat) : List Nat → Bool
  | [] => true
  | a :: as => (match lo with | none => true | some l => decide (l < a)) && risingFrom (some a) as

/-- The canonical form of a set of linear addresses: strictly rising, each of 64 bits. -/
def addrsWf (as : List Nat) : Bool := risingFrom none as && as.all fun a => decide (a < 2 ^ 64)

/-- The canonical form of memory: addresses strictly rising, each a linear address. No entry can equal what an unlisted
address reads as, since that has no value. -/
def Memory.wf (m : Memory) : Bool := addrsWf (m.map Prod.fst)

/-! ## The state -/

/-- The whole machine. -/
structure State where
  /-- ZMM[0..31] (10_state.md R100) -/
  zmm : Vector Zmm 32
  /-- K[0..7] (R110) -/
  k : Vector Word 8
  /-- GPR[0..15] (R120) -/
  gpr : Vector Word 16
  /-- the instruction pointer (R121) -/
  rip : Word
  /-- FS_BASE (R141) -/
  fsBase : Word
  /-- GS_BASE (R141) -/
  gsBase : Word
  /-- RFLAGS (R130, R170), the interrupt mask among it (log 3) -/
  rflags : Word
  /-- MXCSR (R130, R170) -/
  mxcsr : BitVec 32
  /-- CR0 (R140; 60_exceptions.md R605, R609) -/
  cr0 : Word
  /-- CR2, the address of a page fault (60_exceptions.md R608) -/
  cr2 : Word
  /-- CR4 (R140; 60_exceptions.md R605) -/
  cr4 : Word
  /-- XCR0 (R140; 60_exceptions.md R605, R606) -/
  xcr0 : Word
  /-- MODE (00_scope.md R8) -/
  mode : Mode
  /-- the privilege level (R170; 60_exceptions.md R640); log 5 -/
  cpl : BitVec 2
  /-- the CPUID feature flags (R140), fixed for the run -/
  features : Features
  /-- VA_BITS (00_scope.md R8; 20_memory.md R225); log 6 -/
  vaBits : Nat
  /-- the oracle Access (20_memory.md R230); log 7 -/
  access : List AccessRule
  /-- memory (R150) -/
  mem : Memory
  /-- the addresses in-scope stores have written, for 20_memory.md R243; log 9 -/
  stored : List Nat
  /-- the recorded fault, after which the agent takes no step (60_exceptions.md R630); log 10 -/
  fault : Option FaultRecord
  deriving DecidableEq, Repr

/-- The machine right after reset: one launch state that meets the launch premises of 92_eei_decisions.md. The spec
gives the feature flags (R8), 64-bit mode and the enable bits (R607) and "no fault recorded" (R700); every other value
is the model's (R170 leaves it unspecified): logs 1 to 9. -/
def State.reset : State where
  zmm := Vector.replicate 32 0
  k := Vector.replicate 8 0
  gpr := Vector.replicate 16 0
  rip := 0
  fsBase := 0
  gsBase := 0
  rflags := 0x2
  mxcsr := 0x1F80
  cr0 := 0xE0000011
  cr2 := 0
  cr4 := 0x40020
  xcr0 := 0xE7
  mode := .long64
  cpl := 0
  features := { avx := true, avx512f := true, avx512vl := true, avx512dq := true }
  vaBits := 48
  access := []
  mem := []
  stored := []
  fault := none

end Sys2Proof.Machine
end

