-- ==== Sys2Proof/Machine/Flags.lean ====
section
/-! DEFINITION. The status and control bits. No in-scope instruction reads or writes a status flag (10_state.md R130),
so there is no flag computation; what the instructions read are the enable bits of 10_state.md R140. -/

namespace Sys2Proof.Machine

/-- CR0.TS, bit 3: set, the instructions raise #NM (10_state.md R140; 60_exceptions.md R605). -/
def taskSwitched (s : State) : Bool := s.cr0.getLsbD 3

/-- CR4.OSXSAVE, bit 18 (60_exceptions.md R605). -/
def osxsave (s : State) : Bool := s.cr4.getLsbD 18

/-- XCR0[2:1] = 11b: SSE and AVX state (60_exceptions.md R605). -/
def avxStateEnabled (s : State) : Bool := s.xcr0.extractLsb' 1 2 == 0b11#2

/-- XCR0[7:5] = 111b: opmask, upper ZMM0 to ZMM15 and ZMM16 to ZMM31 state (60_exceptions.md R606). -/
def avx512StateEnabled (s : State) : Bool := s.xcr0.extractLsb' 5 3 == 0b111#3

/-- The modes in which every in-scope encoding is invalid (60_exceptions.md R605, R640). -/
def realOrVirtual (s : State) : Bool := s.mode == .real || s.mode == .virtual8086

/-- The 32-bit modes, which the spec leaves without rules (00_scope.md R6(c); 92_eei_decisions.md D1). -/
def mode32 (s : State) : Bool := s.mode == .legacyProtected || s.mode == .compatibility

/-- The vector state an encoding needs is enabled (60_exceptions.md R605 for VEX, R606 for EVEX whatever the vector
length, R640 for the mode). -/
def stateEnabled (evex : Bool) (s : State) : Bool :=
  !realOrVirtual s && osxsave s && avxStateEnabled s && (!evex || avx512StateEnabled s)

/-- OS_VEC_ENABLED (60_exceptions.md R607). -/
def osVecEnabled (evex : Bool) (s : State) : Bool :=
  s.mode == .long64 && stateEnabled evex s && !taskSwitched s

/-- Alignment checking is on: CR0.AM (bit 18), RFLAGS.AC (bit 18), privilege level 3 (60_exceptions.md R609 names the
three, log 3 their places). No meaning reads it: R609 has it off as a launch premise (log 16). -/
def alignmentChecking (s : State) : Bool := s.cr0.getLsbD 18 && s.rflags.getLsbD 18 && s.cpl == 3#2

end Sys2Proof.Machine
end

