-- ==== Sys2Proof/Machine/Ops.lean ====
section
/-! DEFINITION. The named operations over registers and memory: reading and writing registers, advancing `rip`, storing
and fetching bytes, the canonical check, the oracle Access, and taking an exception. -/

namespace Sys2Proof.Machine

/-- What an instruction answers. -/
abbrev Result := Host.Outcome State Fault Refusal

/-! ## Registers -/

/-- `ZMM[i]` (10_state.md R100). -/
def readZmm (s : State) (i : BitVec 5) : Zmm := s.zmm[i.toNat]'i.isLt

/-- `YMM[i] = ZMM[i][255:0]` (10_state.md R101). -/
def readYmm (s : State) (i : BitVec 5) : BitVec 256 := (readZmm s i).extractLsb' 0 256

/-- `XMM[i] = ZMM[i][127:0]` (10_state.md R101). -/
def readXmm (s : State) (i : BitVec 5) : BitVec 128 := (readZmm s i).extractLsb' 0 128

/-- `ZMM[i] <- v`: every write is of the whole register (00_scope.md R10; 10_state.md R103). -/
def writeZmm (s : State) (i : BitVec 5) (v : Zmm) : State := { s with zmm := s.zmm.set i.toNat v i.isLt }

/-- `K[i]` (10_state.md R110). -/
def readK (s : State) (i : BitVec 3) : Word := s.k[i.toNat]'i.isLt

/-- `GPR[i]` (10_state.md R120). -/
def readGpr (s : State) (i : BitVec 4) : Word := s.gpr[i.toNat]'i.isLt

/-- `rip <- rip + len`, modulo 2^64 (10_state.md R121). -/
def advance (len : Nat) (s : State) : State := { s with rip := s.rip + BitVec.ofNat 64 len }

/-! ## Taking an exception (60_exceptions.md R610, R630)

A fault is precise and terminal: `raise` answers it and changes nothing; `recordFault` is what the machine keeps. The
spec describes no entry into a handler and no return from one (R630, R631). -/

/-- The instruction ends with this fault. -/
def raise (r : FaultRecord) : Result := .fault (.raised r)

/-- #UD: no error code, no address (60_exceptions.md R601, R610). -/
def ud : FaultRecord := { kind := .invalidOpcode, code := none, addr := none }

/-- #NM (60_exceptions.md R610). -/
def nm : FaultRecord := { kind := .deviceNotAvailable, code := none, addr := none }

/-- #SS(0) (60_exceptions.md R608, R610). -/
def ss0 : FaultRecord := { kind := .stackFault, code := some 0, addr := none }

/-- #GP(0) (60_exceptions.md R608, R610). -/
def gp0 : FaultRecord := { kind := .generalProtection, code := some 0, addr := none }

/-- #PF(code), recording the faulting linear address (60_exceptions.md R608, R610). -/
def pf (code : BitVec 32) (a : Word) : FaultRecord := { kind := .pageFault, code := some code, addr := some a }

/-- The vector number of a fault (60_exceptions.md R610). -/
def FaultKind.vector : FaultKind → Nat
  | .invalidOpcode => 6
  | .deviceNotAvailable => 7
  | .stackFault => 12
  | .generalProtection => 13
  | .pageFault => 14

/-- The machine after a fault: the record is kept, a page fault leaves its address in CR2 (60_exceptions.md R608), and
nothing else changes (R630). -/
def recordFault (r : FaultRecord) (s : State) : State :=
  { s with
    fault := some r
    cr2 := match r.kind, r.addr with
      | .pageFault, some a => a
      | _, _ => s.cr2 }

/-! ## Addresses -/

/-- An address is canonical when bits 63 down to VA_BITS - 1 are all equal (20_memory.md R225). -/
def canonical (vaBits : Nat) (a : Word) : Bool :=
  a.sshiftRight (vaBits - 1) == 0#64 || a.sshiftRight (vaBits - 1) == BitVec.allOnes 64

/-- Every byte `LA + i`, `0 <= i < n`, is canonical (20_memory.md R225). R225 does not say what `LA + i` is past
2^64 - 1: the model takes it modulo 2^64 (DESIGN CHOICE, log 26). -/
def operandCanonical (s : State) (la : Word) (n : Nat) : Bool :=
  (List.range n).all fun i => canonical s.vaBits (la + BitVec.ofNat 64 i)

/-- The placement the model accepts: `rip` and `rip + len` canonical and no wrap past 2^64 (10_state.md R121; log 11). -/
def placed (len : Nat) (s : State) : Bool :=
  canonical s.vaBits s.rip && decide (s.rip.toNat + len < 2 ^ 64) &&
    canonical s.vaBits (s.rip + BitVec.ofNat 64 len)

/-- `Access(LA, n, write)` (20_memory.md R230): the first row of the table that matches answers; no row, ok. The error
code has its write bit (bit 1) set (60_exceptions.md R608), and the address reported lies in the operand (log 17), whose
bytes past 2^64 - 1 go on at 0 (log 26). -/
def accessAnswer (s : State) (la : Word) (n : Nat) : AccessAnswer :=
  match s.access.find? fun r => decide (r.first ≤ la) && decide (la ≤ r.last) && r.bytes == n with
  | none => .ok
  | some r =>
    .pageFault (r.code ||| 2#32) (match r.addr with
      | some a => if (a - la).toNat < n then a else la
      | none => la)

/-! ## Memory -/

/-- The byte at an address. An unlisted address has no value (R170: unspecified); log 8. -/
def Memory.read : Memory → Nat → Option Byte
  | [], _ => none
  | (x, b) :: m, a => if x = a then some b else Memory.read m a

/-- Write one byte, keeping the addresses in rising order. -/
def Memory.write : Memory → Nat → Byte → Memory
  | [], a, b => [(a, b)]
  | (x, c) :: m, a, b =>
    if a < x then (a, b) :: (x, c) :: m
    else if a = x then (a, b) :: m
    else (x, c) :: Memory.write m a b

/-- Add an address to a rising list of addresses. -/
def addAddr : List Nat → Nat → List Nat
  | [], a => [a]
  | x :: xs, a => if a < x then a :: x :: xs else if a = x then x :: xs else x :: addAddr xs a

/-- Take an address out of a list of addresses. -/
def dropAddr (as : List Nat) (a : Nat) : List Nat := as.filter fun x => x != a

/-- The byte writes of `MemWrite(addr, n, v)`: bits `8i+7:8i` of `v` go to address `addr + i` (20_memory.md R201). R201
does not say what `addr + i` is past 2^64 - 1: the model takes it modulo 2^64 (DESIGN CHOICE, log 26). -/
def byteWrites {w : Nat} (addr : Word) (n : Nat) (v : BitVec w) : List Host.Cell :=
  (List.range n).map fun i => ((addr + BitVec.ofNat 64 i).toNat, v.extractLsb' (8 * i) 8)

/-- Perform byte writes in order, and note them as stored (20_memory.md R200, R243). -/
def store (s : State) (ws : List Host.Cell) : State :=
  { s with
    mem := ws.foldl (fun m c => Memory.write m c.1 c.2) s.mem
    stored := ws.foldl (fun as c => addAddr as c.1) s.stored }

/-- Place program bytes from outside (10_state.md R170: a launch parameter): they count as text, not as stored. -/
def placeBytes (s : State) (a : Word) (bs : List Byte) : State :=
  match bs with
  | [] => s
  | b :: bs =>
    placeBytes { s with mem := Memory.write s.mem a.toNat b, stored := dropAddr s.stored a.toNat } (a + 1) bs

/-! ## Fetch (20_memory.md R202, R243) -/

/-- The byte at `a` as program text: it has a value and no in-scope store has written it. -/
def fetchByte (s : State) (a : Word) : Option Byte :=
  if s.stored.contains a.toNat then none else Memory.read s.mem a.toNat

/-- Up to `n` bytes of program text at ascending addresses from `a`, modulo 2^64 (log 26), ending before the first that
cannot be fetched. -/
def fetchBytes (s : State) (a : Word) : Nat → List Byte
  | 0 => []
  | n + 1 =>
    match fetchByte s a with
    | none => []
    | some b => b :: fetchBytes s (a + 1) n

/-- The bytes the decoder may read at `rip`: at most 15 (00_scope.md R8). -/
def fetchWindow (s : State) : List Byte := fetchBytes s s.rip Config.maxInsnLen

/-- The instruction needs the byte at `a`, which cannot be fetched: refused where an in-scope store has written it
(20_memory.md R243), a fault where nothing has (log 8). -/
def fetchStop (s : State) (a : Word) : Result :=
  if s.stored.contains a.toNat then .refused (.selfModifying a) else .fault (.fetchUnwritten a)

end Sys2Proof.Machine
end

