-- ==== Sys2Proof/Machine/Operands.lean ====
section
/-! DEFINITION. The operands: lane selection (40_vextractf.md R401, R402), the writemask (R403; 30_encoding.md R317),
the effective and linear address of a memory destination (20_memory.md R221 to R225), and the two ways to write a
destination (40_vextractf.md R403, R404). -/

namespace Sys2Proof.Machine

/-! ## Lane selection -/

/-- The lane number the immediate selects (40_vextractf.md R401; 30_encoding.md R320): one bit of a 256-bit source, two
of a 512-bit source. -/
def laneIndex (vl : Nat) (imm : Byte) : Nat :=
  if vl = 256 then (imm.extractLsb' 0 1).toNat else (imm.extractLsb' 0 2).toNat

/-- `Select128(src, VL, imm8)` (40_vextractf.md R401). -/
def select128 {vl : Nat} (src : BitVec vl) (imm : Byte) : BitVec 128 := src.extractLsb' (128 * laneIndex vl imm) 128

/-- `Select256(src, imm8)` (40_vextractf.md R402). -/
def select256 (src : BitVec 512) (imm : Byte) : BitVec 256 := src.extractLsb' (256 * (imm.extractLsb' 0 1).toNat) 256

/-! ## The writemask -/

/-- Element `j` is written: there is no writemask, or its bit `j` is 1 (40_vextractf.md R403; 30_encoding.md R317). -/
def selected (s : State) (aaa : BitVec 3) (j : Nat) : Bool := aaa == 0#3 || (readK s aaa).getLsbD j

/-- The bits of the first `n` elements of `E` bits that are selected. -/
def selectedBits (E : Nat) (sel : Nat → Bool) : Nat → Zmm
  | 0 => 0#512
  | n + 1 => selectedBits E sel n ||| (if sel n then (BitVec.allOnes E).setWidth 512 <<< (n * E) else 0#512)

/-- `MaskedRegResult(old, tmp, W, E, aaa, z)` (40_vextractf.md R403): selected elements from `tmp`, the others kept from
`old` (merging) or 0 (zeroing), every bit from `W` up 0. -/
def maskedRegResult {W : Nat} (old : Zmm) (tmp : BitVec W) (E : Nat) (sel : Nat → Bool) (z : Bool) : Zmm :=
  let pick := selectedBits E sel (W / E)
  let low := (BitVec.allOnes W).setWidth 512
  ((tmp.setWidth 512 &&& pick) ||| (if z then 0#512 else old &&& ~~~pick)) &&& low

/-- The byte writes of `MaskedMemWrite` (40_vextractf.md R404; 20_memory.md R211): each selected element as its own
little-endian value at offset `j * E / 8`, modulo 2^64 (log 26), nothing for the others. -/
def maskedWrites {W : Nat} (la : Word) (tmp : BitVec W) (E : Nat) (sel : Nat → Bool) : List Host.Cell :=
  (List.range (W / E)).flatMap fun j =>
    if sel j then byteWrites (la + BitVec.ofNat 64 (j * (E / 8))) (E / 8) (tmp.extractLsb' (j * E) E) else []

/-! ## Addresses of memory destinations -/

/-- The address-size prefix 67 is present (20_memory.md R224). -/
def addr32 (pre : List LegacyPrefix) : Bool := pre.contains .addrSize

/-- The last segment-override prefix, the one that counts (20_memory.md R224). -/
def segOverride (pre : List LegacyPrefix) : Option LegacyPrefix := (pre.filter fun p => p != .addrSize).getLast?

/-- `segbase`: FS_BASE or GS_BASE under that override, 0 otherwise (20_memory.md R224; 10_state.md R141). -/
def segBase (s : State) (pre : List LegacyPrefix) : Word :=
  match segOverride pre with
  | some .fs => s.fsBase
  | some .gs => s.gsBase
  | _ => 0

/-- An FS or GS override is in force. -/
def fsOrGs (pre : List LegacyPrefix) : Bool := segOverride pre == some .fs || segOverride pre == some .gs

/-- The 4-bit number of the base register, if the operand has one (20_memory.md R221). -/
def baseReg : MemOp → Option (BitVec 4)
  | .base b _ => some b
  | .ripRel _ => none
  | .sib b _ _ _ => some b
  | .sibNoBase _ _ _ => none

/-- The segment is SS: no FS or GS override, and the base register is number 4 (RSP) or 5 (RBP) (20_memory.md R224;
log 13). -/
def segIsSS (pre : List LegacyPrefix) (m : MemOp) : Bool :=
  !fsOrGs pre && (baseReg m == some 4#4 || baseReg m == some 5#4)

/-- A general register as the address arithmetic reads it: its low 32 bits under prefix 67 (20_memory.md R224). -/
def addrReg (s : State) (a32 : Bool) (r : BitVec 4) : Word :=
  if a32 then ((readGpr s r).setWidth 32).setWidth 64 else readGpr s r

/-- An address sum: modulo 2^32, zero-extended, under prefix 67 (20_memory.md R224). -/
def addrSum (a32 : Bool) (a : Word) : Word := if a32 then (a.setWidth 32).setWidth 64 else a

/-- The displacement: one byte sign-extended and multiplied by `N`, four bytes sign-extended (20_memory.md R221, R222). -/
def dispValue (N : Nat) : Disp → Word
  | .absent => 0
  | .disp8 d => d.signExtend 64 * BitVec.ofNat 64 N
  | .disp32 d => d.signExtend 64

/-- `ival`: index times 2^scale, 0 where index is 0100b (20_memory.md R221). -/
def indexValue (s : State) (a32 : Bool) (index : BitVec 4) (scale : BitVec 2) : Word :=
  if index = 0b0100#4 then 0 else addrReg s a32 index <<< scale.toNat

/-- The effective address `EA` (20_memory.md R221 to R224); `len` is the instruction's length. -/
def effAddr (s : State) (pre : List LegacyPrefix) (N len : Nat) (m : MemOp) : Word :=
  let a32 := addr32 pre
  addrSum a32 <| match m with
    | .base b d => addrReg s a32 b + dispValue N d
    | .ripRel d => s.rip + BitVec.ofNat 64 len + d.signExtend 64
    | .sib b index scale d => addrReg s a32 b + indexValue s a32 index scale + dispValue N d
    | .sibNoBase index scale d => indexValue s a32 index scale + d.signExtend 64

/-- The linear address `LA = EA + segbase` (20_memory.md R224). -/
def linAddr (s : State) (pre : List LegacyPrefix) (N len : Nat) (m : MemOp) : Word :=
  effAddr s pre N len m + segBase s pre

/-! ## The checks and the two kinds of destination -/

/-- What the checks before the operands need of an instruction. -/
structure Needs where
  /-- its length in bytes -/
  len : Nat
  /-- no encoding rule is broken (30_encoding.md R341) -/
  legal : Bool
  /-- the CPUID flags the opcode table lists are all set (60_exceptions.md R604) -/
  features : Bool
  /-- an EVEX encoding, which needs more state enabled (60_exceptions.md R606) -/
  evex : Bool
  deriving DecidableEq, Repr

/-- The checks of 40_vextractf.md R405 steps 1 and 2 in the order of 60_exceptions.md R620, and then the placement
(10_state.md R121, log 11); `go` is what follows. -/
def checked (n : Needs) (s : State) (go : Result) : Result :=
  if mode32 s then .refused .modeOutOfScope
  else if Config.maxInsnLen < n.len then raise gp0
  else if !n.legal then raise ud
  else if !n.features then raise ud
  else if !stateEnabled n.evex s then raise ud
  else if taskSwitched s then raise nm
  else if !placed n.len s then .refused .placement
  else go

/-- The store of a memory destination and the advance of `rip` (40_vextractf.md R404, R405): canonical check, Access for
the whole operand of `n` bytes, and only then the writes. -/
def storeTo (s : State) (ss : Bool) (la : Word) (n : Nat) (ws : List Host.Cell) (len : Nat) : Result :=
  if !operandCanonical s la n then raise (if ss then ss0 else gp0)
  else match accessAnswer s la n with
    | .pageFault code a => raise (pf code a)
    | .ok => .next (advance len (store s ws))

/-- Write an unmasked lane, the VEX form (40_vextractf.md R410, R405 steps 4 and 5). -/
def writeVex {W : Nat} (pre : List LegacyPrefix) (dst : Dst 4) (lane : BitVec W) (len : Nat) (s : State) : Result :=
  match dst with
  | .reg d => .next (advance len (writeZmm s (d.setWidth 5) (lane.setWidth 512)))
  | .mem m =>
    storeTo s (segIsSS pre m) (linAddr s pre 1 len m) (W / 8) (byteWrites (linAddr s pre 1 len m) (W / 8) lane) len

/-- Write a lane under a writemask, the EVEX forms (40_vextractf.md R403, R404, R405 steps 4 and 5). A one-byte
displacement is scaled by the operand's size (20_memory.md R222). -/
def writeEvex {W : Nat} (E : Nat) (pre : List LegacyPrefix) (wm : WriteMask) (dst : Dst 5) (lane : BitVec W) (len : Nat)
    (s : State) : Result :=
  match dst with
  | .reg d =>
    .next (advance len (writeZmm s d (maskedRegResult (readZmm s d) lane E (selected s wm.aaa) wm.z)))
  | .mem m =>
    storeTo s (segIsSS pre m) (linAddr s pre (W / 8) len m) (W / 8)
      (maskedWrites (linAddr s pre (W / 8) len m) lane E (selected s wm.aaa)) len

end Sys2Proof.Machine
end

