-- ==== Sys2Proof/Machine/Extract.lean ====
section
/-! DEFINITION. The meanings of the seven encodings (40_vextractf.md R410 to R416), each over the shared checks and
destination writes of Operands. -/

namespace Sys2Proof.Machine

/-- VEXTRACTF128 xmm1/m128, ymm2, imm8 (40_vextractf.md R410). -/
def execVextractf128 (pre : List LegacyPrefix) (dst : Dst 4) (src : BitVec 4) (imm : Byte) (s : State) : Result :=
  let len := vexLength pre dst
  checked { len := len, legal := true, features := s.features.avx, evex := false } s
    (writeVex pre dst (select128 (readYmm s (src.setWidth 5)) imm) len s)

/-- VEXTRACTF32x4 xmm1/m128 {k1}{z}, ymm2, imm8 (40_vextractf.md R411). -/
def execVextractf32x4Ymm (pre : List LegacyPrefix) (wm : WriteMask) (dst : Dst 5) (src : BitVec 5) (imm : Byte)
    (s : State) : Result :=
  let len := evexLength pre dst
  checked { len := len, legal := wm.legal dst, features := s.features.avx512vl && s.features.avx512f, evex := true } s
    (writeEvex 32 pre wm dst (select128 (readYmm s src) imm) len s)

/-- VEXTRACTF32x4 xmm1/m128 {k1}{z}, zmm2, imm8 (40_vextractf.md R412). -/
def execVextractf32x4Zmm (pre : List LegacyPrefix) (wm : WriteMask) (dst : Dst 5) (src : BitVec 5) (imm : Byte)
    (s : State) : Result :=
  let len := evexLength pre dst
  checked { len := len, legal := wm.legal dst, features := s.features.avx512f, evex := true } s
    (writeEvex 32 pre wm dst (select128 (readZmm s src) imm) len s)

/-- VEXTRACTF64x2 xmm1/m128 {k1}{z}, ymm2, imm8 (40_vextractf.md R413). -/
def execVextractf64x2Ymm (pre : List LegacyPrefix) (wm : WriteMask) (dst : Dst 5) (src : BitVec 5) (imm : Byte)
    (s : State) : Result :=
  let len := evexLength pre dst
  checked { len := len, legal := wm.legal dst, features := s.features.avx512vl && s.features.avx512dq, evex := true } s
    (writeEvex 64 pre wm dst (select128 (readYmm s src) imm) len s)

/-- VEXTRACTF64x2 xmm1/m128 {k1}{z}, zmm2, imm8 (40_vextractf.md R414). -/
def execVextractf64x2Zmm (pre : List LegacyPrefix) (wm : WriteMask) (dst : Dst 5) (src : BitVec 5) (imm : Byte)
    (s : State) : Result :=
  let len := evexLength pre dst
  checked { len := len, legal := wm.legal dst, features := s.features.avx512dq, evex := true } s
    (writeEvex 64 pre wm dst (select128 (readZmm s src) imm) len s)

/-- VEXTRACTF32x8 ymm1/m256 {k1}{z}, zmm2, imm8 (40_vextractf.md R415). -/
def execVextractf32x8 (pre : List LegacyPrefix) (wm : WriteMask) (dst : Dst 5) (src : BitVec 5) (imm : Byte)
    (s : State) : Result :=
  let len := evexLength pre dst
  checked { len := len, legal := wm.legal dst, features := s.features.avx512dq, evex := true } s
    (writeEvex 32 pre wm dst (select256 (readZmm s src) imm) len s)

/-- VEXTRACTF64x4 ymm1/m256 {k1}{z}, zmm2, imm8 (40_vextractf.md R416). -/
def execVextractf64x4 (pre : List LegacyPrefix) (wm : WriteMask) (dst : Dst 5) (src : BitVec 5) (imm : Byte)
    (s : State) : Result :=
  let len := evexLength pre dst
  checked { len := len, legal := wm.legal dst, features := s.features.avx512f, evex := true } s
    (writeEvex 64 pre wm dst (select256 (readZmm s src) imm) len s)

end Sys2Proof.Machine
end

