-- ==== Sys2Proof/Machine/Dispatch.lean ====
section
/-! DEFINITION. One arm per instruction: its meaning. -/

namespace Sys2Proof.Machine

def exec (i : Instr) (s : State) : Host.Outcome State Fault Refusal :=
  match i with
  | .vextractf128 pre dst src imm => Sys2Proof.Machine.execVextractf128 pre dst src imm s
  | .vextractf32x4Ymm pre wm dst src imm => Sys2Proof.Machine.execVextractf32x4Ymm pre wm dst src imm s
  | .vextractf32x4Zmm pre wm dst src imm => Sys2Proof.Machine.execVextractf32x4Zmm pre wm dst src imm s
  | .vextractf64x2Ymm pre wm dst src imm => Sys2Proof.Machine.execVextractf64x2Ymm pre wm dst src imm s
  | .vextractf64x2Zmm pre wm dst src imm => Sys2Proof.Machine.execVextractf64x2Zmm pre wm dst src imm s
  | .vextractf32x8 pre wm dst src imm => Sys2Proof.Machine.execVextractf32x8 pre wm dst src imm s
  | .vextractf64x4 pre wm dst src imm => Sys2Proof.Machine.execVextractf64x4 pre wm dst src imm s

end Sys2Proof.Machine
end

