-- ==== Sys2Proof/Machine/Step.lean ====
section
/-! DEFINITION. One step: fetch at `rip`, decode, execute (40_vextractf.md R405; 30_encoding.md R332), and the placing
of one instruction where the next step fetches. -/

namespace Sys2Proof.Machine

/-- One step of the agent. A machine with a recorded fault takes no further step (60_exceptions.md R630); outside 64-bit
mode there are no decoding rules (92_eei_decisions.md D1). -/
def step (s : State) : Host.Outcome State Fault Refusal :=
  match s.fault with
  | some r => raise r
  | none =>
    if s.mode != .long64 then .refused .modeOutOfScope
    else match decode (fetchWindow s) with
      | .instr i => exec i s
      | .undefinedOpcode => raise ud
      | .tooLong => raise gp0
      | .outOfScope => .refused .outOfScope
      | .truncated => fetchStop s (s.rip + BitVec.ofNat 64 (fetchWindow s).length)

/-- `s` with the instruction whose bits are `w` loaded at `rip` as program text, in 64-bit mode and with no fault
recorded, so that the next step runs it (log 2). -/
def State.withFetchWord (s : State) (nbits w : Nat) : State :=
  placeBytes { s with mode := .long64, fault := none } s.rip (tableBytes nbits w)

end Sys2Proof.Machine
end

