-- ==== Sys2Proof/Safety.lean ====
section
/-! DEFINITION. The words claims are stated in: the launch premises of 92_eei_decisions.md, what an observer sees after a
step, the canonical form every step keeps, and the facts of 40_vextractf.md R423 that a claim about all seven encodings
reads off an instruction. -/

namespace Sys2Proof

/-! ## Facts about an instruction (40_vextractf.md R423; 30_encoding.md R330) -/

/-- The row of the opcode table. -/
def Instr.row : Instr → Nat
  | .vextractf128 .. => 1
  | .vextractf32x4Ymm .. => 2
  | .vextractf32x4Zmm .. => 3
  | .vextractf64x2Ymm .. => 4
  | .vextractf64x2Zmm .. => 5
  | .vextractf32x8 .. => 6
  | .vextractf64x4 .. => 7

/-- The legacy prefixes. -/
def Instr.pre : Instr → List LegacyPrefix
  | .vextractf128 pre _ _ _ => pre
  | .vextractf32x4Ymm pre _ _ _ _ => pre
  | .vextractf32x4Zmm pre _ _ _ _ => pre
  | .vextractf64x2Ymm pre _ _ _ _ => pre
  | .vextractf64x2Zmm pre _ _ _ _ => pre
  | .vextractf32x8 pre _ _ _ _ => pre
  | .vextractf64x4 pre _ _ _ _ => pre

/-- The number of the destination vector register, in the register form. -/
def Instr.destReg : Instr → Option (BitVec 5)
  | .vextractf128 _ (.reg d) _ _ => some (d.setWidth 5)
  | .vextractf32x4Ymm _ _ (.reg d) _ _ => some d
  | .vextractf32x4Zmm _ _ (.reg d) _ _ => some d
  | .vextractf64x2Ymm _ _ (.reg d) _ _ => some d
  | .vextractf64x2Zmm _ _ (.reg d) _ _ => some d
  | .vextractf32x8 _ _ (.reg d) _ _ => some d
  | .vextractf64x4 _ _ (.reg d) _ _ => some d
  | _ => none

/-- The memory destination, in the memory form. -/
def Instr.destMem : Instr → Option MemOp
  | .vextractf128 _ (.mem m) _ _ => some m
  | .vextractf32x4Ymm _ _ (.mem m) _ _ => some m
  | .vextractf32x4Zmm _ _ (.mem m) _ _ => some m
  | .vextractf64x2Ymm _ _ (.mem m) _ _ => some m
  | .vextractf64x2Zmm _ _ (.mem m) _ _ => some m
  | .vextractf32x8 _ _ (.mem m) _ _ => some m
  | .vextractf64x4 _ _ (.mem m) _ _ => some m
  | _ => none

/-- The number of the source vector register. -/
def Instr.srcReg : Instr → BitVec 5
  | .vextractf128 _ _ src _ => src.setWidth 5
  | .vextractf32x4Ymm _ _ _ src _ => src
  | .vextractf32x4Zmm _ _ _ src _ => src
  | .vextractf64x2Ymm _ _ _ src _ => src
  | .vextractf64x2Zmm _ _ _ src _ => src
  | .vextractf32x8 _ _ _ src _ => src
  | .vextractf64x4 _ _ _ src _ => src

/-- The immediate byte. -/
def Instr.imm : Instr → Byte
  | .vextractf128 _ _ _ imm => imm
  | .vextractf32x4Ymm _ _ _ _ imm => imm
  | .vextractf32x4Zmm _ _ _ _ imm => imm
  | .vextractf64x2Ymm _ _ _ _ imm => imm
  | .vextractf64x2Zmm _ _ _ _ imm => imm
  | .vextractf32x8 _ _ _ _ imm => imm
  | .vextractf64x4 _ _ _ _ imm => imm

/-- The same instruction with another immediate byte. -/
def Instr.withImm (imm : Byte) : Instr → Instr
  | .vextractf128 pre dst src _ => .vextractf128 pre dst src imm
  | .vextractf32x4Ymm pre wm dst src _ => .vextractf32x4Ymm pre wm dst src imm
  | .vextractf32x4Zmm pre wm dst src _ => .vextractf32x4Zmm pre wm dst src imm
  | .vextractf64x2Ymm pre wm dst src _ => .vextractf64x2Ymm pre wm dst src imm
  | .vextractf64x2Zmm pre wm dst src _ => .vextractf64x2Zmm pre wm dst src imm
  | .vextractf32x8 pre wm dst src _ => .vextractf32x8 pre wm dst src imm
  | .vextractf64x4 pre wm dst src _ => .vextractf64x4 pre wm dst src imm

/-- The writemask; VEXTRACTF128 has none (30_encoding.md R317), which is aaa = 000b. -/
def Instr.mask : Instr → WriteMask
  | .vextractf128 .. => { aaa := 0, z := false }
  | .vextractf32x4Ymm _ wm _ _ _ => wm
  | .vextractf32x4Zmm _ wm _ _ _ => wm
  | .vextractf64x2Ymm _ wm _ _ _ => wm
  | .vextractf64x2Zmm _ wm _ _ _ => wm
  | .vextractf32x8 _ wm _ _ _ => wm
  | .vextractf64x4 _ wm _ _ _ => wm

/-- The memory operand has an encoding, in the memory form. -/
def Instr.dstWf (i : Instr) : Bool :=
  match i.destMem with
  | some m => m.wf
  | none => true

/-- No zeroing that 30_encoding.md R341 makes #UD: z = 1 only with a register destination and a writemask. -/
def Instr.maskLegal (i : Instr) : Bool :=
  !i.mask.z || (i.destReg.isSome && i.mask.aaa != 0)

/-- An EVEX encoding. -/
def Instr.evex (i : Instr) : Bool := i.row != 1

/-- Lane width `W` in bits. -/
def Instr.laneBits (i : Instr) : Nat := if i.row ≤ 5 then 128 else 256

/-- Element size `E` in bits; VEXTRACTF128 has no elements, and any size will do for it. -/
def Instr.elementBits (i : Instr) : Nat := if i.row = 4 ∨ i.row = 5 ∨ i.row = 7 then 64 else 32

/-- Displacement scale `N`. -/
def Instr.dispScale (i : Instr) : Nat := if i.row = 1 then 1 else if i.row ≤ 5 then 16 else 32

/-- The first bit of the source register that the immediate selects. -/
def Instr.laneStart (i : Instr) : Nat :=
  if i.row = 3 ∨ i.row = 5 then 128 * (i.imm.toNat % 4) else i.laneBits * (i.imm.toNat % 2)

/-- The CPUID flags the opcode table lists for the encoding are all set. -/
def Instr.flagsSet (i : Instr) (f : Features) : Bool :=
  match i with
  | .vextractf128 .. => f.avx
  | .vextractf32x4Ymm .. => f.avx512vl && f.avx512f
  | .vextractf32x4Zmm .. => f.avx512f
  | .vextractf64x2Ymm .. => f.avx512vl && f.avx512dq
  | .vextractf64x2Zmm .. => f.avx512dq
  | .vextractf32x8 .. => f.avx512dq
  | .vextractf64x4 .. => f.avx512f

/-- The opcode table's match and mask over the first 5 bytes as one number, the first byte most significant
(30_encoding.md R331); row 1 leaves the fifth byte free. -/
def Instr.rowMatches (n : Nat) (first5 : BitVec 40) : Bool :=
  match n with
  | 1 => first5 &&& 0xFF1FFFFF00#40 == 0xC4037D1900#40
  | 2 => first5 &&& 0xFF0FFF78FF#40 == 0x62037D2819#40
  | 3 => first5 &&& 0xFF0FFF78FF#40 == 0x62037D4819#40
  | 4 => first5 &&& 0xFF0FFF78FF#40 == 0x6203FD2819#40
  | 5 => first5 &&& 0xFF0FFF78FF#40 == 0x6203FD4819#40
  | 6 => first5 &&& 0xFF0FFF78FF#40 == 0x62037D481B#40
  | 7 => first5 &&& 0xFF0FFF78FF#40 == 0x6203FD481B#40
  | _ => false

/-- Bytes of ModRM, SIB, displacement and immediate, from the bytes that begin with ModRM (30_encoding.md R300). A
register form has ModRM and the immediate. A memory form has a SIB byte when rm = 100b, a four-byte displacement exactly
when mod = 10b, or mod = 00b and rm = 101b, or mod = 00b, rm = 100b and base = 101b, and a one-byte one exactly when
mod = 01b (20_memory.md R221). A byte that is not there counts as 0. -/
def tailLength (bytes : List Byte) : Nat :=
  let mod := (bytes.getD 0 0).extractLsb' 6 2
  let rm := (bytes.getD 0 0).extractLsb' 0 3
  let base := (bytes.getD 1 0).extractLsb' 0 3
  if mod = 0b11#2 then 2
  else 2 + (if rm = 0b100#3 then 1 else 0) +
    (if mod = 0b01#2 then 1
      else if mod = 0b10#2 ∨ rm = 0b101#3 ∨ (rm = 0b100#3 ∧ base = 0b101#3) then 4
      else 0)

/-- Where the number of a memory operand's base register is not used: RIP-relative, and SIB with no base (20_memory.md
R221). The bytes begin with ModRM. -/
def noBase (bytes : List Byte) : Prop :=
  (bytes.getD 0 0).extractLsb' 6 2 = 0b00#2 ∧
    ((bytes.getD 0 0).extractLsb' 0 3 = 0b101#3 ∨
      ((bytes.getD 0 0).extractLsb' 0 3 = 0b100#3 ∧ (bytes.getD 1 0).extractLsb' 0 3 = 0b101#3))

end Sys2Proof

namespace Sys2Proof.Machine

/-! ## Launch premises -/

/-- The launch premises that the state can show (92_eei_decisions.md, "Launch premises collected"): 64-bit mode and
OS_VEC_ENABLED, all four feature flags, alignment checking off, no fault recorded. -/
def launchPremises (s : State) : Bool :=
  osVecEnabled true s && s.features.avx && s.features.avx512f && s.features.avx512vl && s.features.avx512dq &&
    !alignmentChecking s && s.fault.isNone

/-- When an instruction passes every check before its operands (40_vextractf.md R405 steps 1 and 2; 10_state.md R121):
64-bit mode, the vector state it needs enabled, CR0.TS clear, its CPUID flags set, a legal masking kind, at most 15
bytes, and a placement the model accepts. -/
def Ready (i : Instr) (s : State) : Prop :=
  osVecEnabled i.evex s = true ∧ i.flagsSet s.features = true ∧ i.maskLegal = true ∧ i.length ≤ 15 ∧
    placed i.length s = true

/-- The lane the instruction extracts: `laneBits` bits of the source register from `laneStart` up (40_vextractf.md R401,
R402). -/
def lane (i : Instr) (s : State) : BitVec i.laneBits := (readZmm s i.srcReg).extractLsb' i.laneStart i.laneBits

/-- Element `j` is written: no writemask, or its mask bit is 1 (40_vextractf.md R403, R404). -/
def writesElement (i : Instr) (s : State) (j : Nat) : Bool := i.mask.aaa == 0 || (readK s i.mask.aaa).getLsbD j

/-- The linear address of the memory destination `m` of `i` (20_memory.md R221 to R224). -/
def destAddr (i : Instr) (m : MemOp) (s : State) : Word := linAddr s i.pre i.dispScale i.length m

/-- The memory checks pass for the whole operand (20_memory.md R225, R230). -/
def Storable (i : Instr) (m : MemOp) (s : State) : Prop :=
  operandCanonical s (destAddr i m s) (i.laneBits / 8) = true ∧
    accessAnswer s (destAddr i m s) (i.laneBits / 8) = .ok

/-! ## What a destination holds afterwards -/

/-- Bit `b` of a register destination `d` after a lane of register `src` from bit `start` up is written to it in
elements of `E` bits (40_vextractf.md R403). -/
def resultBit (s : State) (wm : WriteMask) (E start : Nat) (src d : BitVec 5) (b : Nat) : Bool :=
  if wm.aaa = 0 ∨ (readK s wm.aaa).getLsbD (b / E) = true then (readZmm s src).getLsbD (start + b)
  else if wm.z = true then false
  else (readZmm s d).getLsbD b

/-- Byte `b` of a memory destination at `la` after a lane of register `src` from bit `start` up is stored there in
elements of `E` bits (40_vextractf.md R404; 20_memory.md R201, R211). -/
def resultByte (s : State) (wm : WriteMask) (E start : Nat) (src : BitVec 5) (la : Word) (b : Nat) : Option Byte :=
  if wm.aaa = 0 ∨ (readK s wm.aaa).getLsbD (8 * b / E) = true then
    some ((readZmm s src).extractLsb' (start + 8 * b) 8)
  else Memory.read s.mem (la + BitVec.ofNat 64 b).toNat

/-- Address `a` is none of the `n` bytes from `la` up. -/
def outside (la : Word) (n a : Nat) : Prop := ∀ b < n, a ≠ (la + BitVec.ofNat 64 b).toNat

/-! ## What stays -/

/-- Everything but the vector registers, `rip`, memory and the note of what was stored is the same. -/
def sameSystem (s t : State) : Prop :=
  t.k = s.k ∧ t.gpr = s.gpr ∧ t.fsBase = s.fsBase ∧ t.gsBase = s.gsBase ∧ t.rflags = s.rflags ∧ t.mxcsr = s.mxcsr ∧
    t.cr0 = s.cr0 ∧ t.cr2 = s.cr2 ∧ t.cr4 = s.cr4 ∧ t.xcr0 = s.xcr0 ∧ t.mode = s.mode ∧ t.cpl = s.cpl ∧
    t.features = s.features ∧ t.vaBits = s.vaBits ∧ t.access = s.access ∧ t.fault = s.fault

/-- The canonical form of the state: memory and the stored addresses are in rising order, and every stored address
holds a byte. -/
def State.wf (s : State) : Bool :=
  Memory.wf s.mem && addrsWf s.stored && s.stored.all fun a => (Memory.read s.mem a).isSome

/-! ## What an observer sees -/

/-- The machine after one step: the next state; after an exception the same machine with the fault recorded
(60_exceptions.md R630); unchanged where the model gives no meaning. -/
def afterStep (s : State) : State :=
  match step s with
  | .next t => t
  | .fault (.raised r) => recordFault r s
  | .fault (.fetchUnwritten _) => s
  | .refused _ => s

/-- Apply `f` to the next state, if there is one. -/
def mapNext (f : State → State) : Result → Result
  | .next t => .next (f t)
  | .fault r => .fault r
  | .refused r => .refused r

end Sys2Proof.Machine
end

