-- ==== Sys2Proof/Certificates/Slice0/Obligations.lean ====
section
/-! DEFINITION. The statements for the provers. Each docstring names the rule or the section of spec/ it formalises, and
the log entry where it rests on a choice of the model's. `len` is an instruction's length in bytes. -/

open Sys2Proof Sys2Proof.Machine

/-! ## Encoding -/

/-- Decoding an encoded well-formed instruction gives it back, at every value of every operand, whatever bytes follow
(30_encoding.md sections 1 to 6). -/
def Obligations.DecodeEncodeRoundTrip : Prop :=
  ∀ (i : Instr) (rest : List Byte), i.wf = true → decode (encode i ++ rest) = .instr i

/-- Whatever decodes to an instruction decodes to a well-formed one that is no longer than the bytes given
(30_encoding.md sections 1 and 6). -/
def Obligations.DecodedInstructionIsWellFormed : Prop :=
  ∀ (bytes : List Byte) (i : Instr), decode bytes = .instr i → i.wf = true ∧ i.length ≤ bytes.length

/-- Decoding depends on no byte after the instruction (30_encoding.md section 1). -/
def Obligations.DecodingReadsOnlyItsLength : Prop :=
  ∀ (bytes rest : List Byte) (i : Instr), decode bytes = .instr i → decode (bytes.take i.length ++ rest) = .instr i

/-- The match and mask of 30_encoding.md section 6 (R331's table) name the row, after any legacy prefixes. What decodes
from bytes that begin with VEX or EVEX is of the row they meet. And bytes that meet a row's match and mask, with zeroing
only where R341 allows it, whose operand bytes are all there and end within 15 bytes, decode to that row with those
prefixes and that length, whatever the bits the mask leaves free: R, X, B, R' and an extension bit that no operand uses. -/
def Obligations.DecodedRowMatchesBitPattern : Prop :=
  ∀ (pre : List LegacyPrefix) (b0 b1 b2 b3 b4 : Byte) (bytes : List Byte),
    (∀ i, b0 = 0xC4#8 ∨ b0 = 0x62#8 →
      decode (pre.map LegacyPrefix.byte ++ b0 :: b1 :: b2 :: b3 :: b4 :: bytes) = .instr i →
      ∀ n, i.row = n ↔ Instr.rowMatches n (b0 ++ b1 ++ b2 ++ b3 ++ b4) = true) ∧
    (Instr.rowMatches 1 (b0 ++ b1 ++ b2 ++ b3 ++ b4) = true →
      tailLength (b4 :: bytes) ≤ (b4 :: bytes).length → pre.length + 4 + tailLength (b4 :: bytes) ≤ 15 →
      ∃ i, decode (pre.map LegacyPrefix.byte ++ b0 :: b1 :: b2 :: b3 :: b4 :: bytes) = .instr i ∧ i.row = 1 ∧
        i.pre = pre ∧ i.length = pre.length + 4 + tailLength (b4 :: bytes)) ∧
    (∀ n, 2 ≤ n → Instr.rowMatches n (b0 ++ b1 ++ b2 ++ b3 ++ b4) = true →
      (b3.getLsbD 7 = true → (bytes.getD 0 0).extractLsb' 6 2 = 0b11#2 ∧ b3.extractLsb' 0 3 ≠ 0b000#3) →
      tailLength bytes ≤ bytes.length → pre.length + 5 + tailLength bytes ≤ 15 →
      ∃ i, decode (pre.map LegacyPrefix.byte ++ b0 :: b1 :: b2 :: b3 :: b4 :: bytes) = .instr i ∧ i.row = n ∧
        i.pre = pre ∧ i.length = pre.length + 5 + tailLength bytes)

/-- An extension bit that no operand uses may have either value: X (bit 6 of the byte after C4 or 62: 30_encoding.md
section 2, R302, and section 3, R305) in the register form of VEXTRACTF128 (30_encoding.md section 4, R313) and in a
memory form without SIB byte, and B (bit 5) in the RIP-relative form and in the form with no base (20_memory.md section
5, R221; log 14). -/
def Obligations.UnusedExtensionBitsAreIgnored : Prop :=
  ∀ (pre : List LegacyPrefix) (p p1 p2 op : Byte) (bytes : List Byte),
    (((bytes.getD 1 0).extractLsb' 6 2 = 0b11#2 ∨ (bytes.getD 1 0).extractLsb' 0 3 ≠ 0b100#3 →
      decode (pre.map LegacyPrefix.byte ++ 0xC4#8 :: (p ^^^ 0x40#8) :: p1 :: bytes) =
        decode (pre.map LegacyPrefix.byte ++ 0xC4#8 :: p :: p1 :: bytes)) ∧
    (noBase (bytes.drop 1) →
      decode (pre.map LegacyPrefix.byte ++ 0xC4#8 :: (p ^^^ 0x20#8) :: p1 :: bytes) =
        decode (pre.map LegacyPrefix.byte ++ 0xC4#8 :: p :: p1 :: bytes))) ∧
    ((bytes.getD 0 0).extractLsb' 6 2 ≠ 0b11#2 ∧ (bytes.getD 0 0).extractLsb' 0 3 ≠ 0b100#3 →
      decode (pre.map LegacyPrefix.byte ++ 0x62#8 :: (p ^^^ 0x40#8) :: p1 :: p2 :: op :: bytes) =
        decode (pre.map LegacyPrefix.byte ++ 0x62#8 :: p :: p1 :: p2 :: op :: bytes)) ∧
    (noBase bytes →
      decode (pre.map LegacyPrefix.byte ++ 0x62#8 :: (p ^^^ 0x20#8) :: p1 :: p2 :: op :: bytes) =
        decode (pre.map LegacyPrefix.byte ++ 0x62#8 :: p :: p1 :: p2 :: op :: bytes))

/-- VEX.L = 0 raises #UD, with no error code and no address, whatever the bytes after the opcode and wherever operands
lie. Only a length over 15 bytes outranks it, which is #GP(0): 15 bytes are there and the prefixes, four bytes up to the
opcode and the operand bytes are more (60_exceptions.md R601, R620; log 12). -/
def Obligations.VexLengthZeroRaisesInvalidOpcode : Prop :=
  ∀ (s : State) (pre : List LegacyPrefix) (b1 b2 : Byte) (bytes : List Byte),
    s.fault = none → s.mode = .long64 →
    fetchWindow s = pre.map LegacyPrefix.byte ++ 0xC4#8 :: b1 :: b2 :: 0x19#8 :: bytes →
    b1.extractLsb' 0 5 = 0b00011#5 → b2.extractLsb' 0 2 = 0b01#2 → b2.getLsbD 2 = false →
    step s =
      if 15 ≤ (fetchWindow s).length ∧ 15 < pre.length + 4 + tailLength bytes then
        .fault (.raised { kind := .generalProtection, code := some 0, addr := none })
      else .fault (.raised { kind := .invalidOpcode, code := none, addr := none })

/-- Any of the seven encodings whose vvvv field is not 1111b raises #UD at decode, whatever its other bits. Only a length
over 15 bytes outranks it, which is #GP(0): 15 bytes are there and the instruction has more (60_exceptions.md R602, R620;
log 12). -/
def Obligations.VvvvNotOnesRaisesInvalidOpcode : Prop :=
  (∀ (s : State) (pre : List LegacyPrefix) (b1 b2 : Byte) (bytes : List Byte),
    s.fault = none → s.mode = .long64 →
    fetchWindow s = pre.map LegacyPrefix.byte ++ 0xC4#8 :: b1 :: b2 :: 0x19#8 :: bytes →
    b1.extractLsb' 0 5 = 0b00011#5 → b2.extractLsb' 0 2 = 0b01#2 → b2.extractLsb' 3 4 ≠ 0b1111#4 →
    step s = if 15 ≤ (fetchWindow s).length ∧ 15 < pre.length + 4 + tailLength bytes then .fault (.raised gp0)
      else .fault (.raised ud)) ∧
  (∀ (s : State) (pre : List LegacyPrefix) (p0 p1 p2 op : Byte) (bytes : List Byte),
    s.fault = none → s.mode = .long64 →
    fetchWindow s = pre.map LegacyPrefix.byte ++ 0x62#8 :: p0 :: p1 :: p2 :: op :: bytes →
    p0.extractLsb' 0 2 = 0b11#2 → p1.extractLsb' 0 2 = 0b01#2 → op = 0x19#8 ∨ op = 0x1B#8 →
    p1.extractLsb' 3 4 ≠ 0b1111#4 →
    step s = if 15 ≤ (fetchWindow s).length ∧ 15 < pre.length + 5 + tailLength bytes then .fault (.raised gp0)
      else .fault (.raised ud))

/-- The near-miss encodings of 30_encoding.md section 7 decode to #UD: VEX.W = 1; EVEX with a reserved bit wrong, V'
stored as 0, b = 1, a vector length no row has, z = 1 with a memory destination or with no writemask; EVEX with a
reserved bit wrong and another map, pp or opcode. Only a length over 15 bytes outranks them: 15 bytes are there and the
instruction has more, or in the last case, whose operands the spec does not give, the bytes up to the opcode are more
(60_exceptions.md section 4; log 12). -/
def Obligations.NearMissEncodingsAreInvalid : Prop :=
  (∀ (pre : List LegacyPrefix) (b1 b2 : Byte) (bytes : List Byte),
    b1.extractLsb' 0 5 = 0b00011#5 → b2.extractLsb' 0 2 = 0b01#2 → b2.getLsbD 7 = true →
    decode (pre.map LegacyPrefix.byte ++ 0xC4#8 :: b1 :: b2 :: 0x19#8 :: bytes) =
      if 15 ≤ pre.length + 4 + bytes.length ∧ 15 < pre.length + 4 + tailLength bytes then .tooLong
      else .undefinedOpcode) ∧
  (∀ (pre : List LegacyPrefix) (p0 p1 p2 op modrm : Byte) (bytes : List Byte),
    p0.extractLsb' 0 2 = 0b11#2 → p1.extractLsb' 0 2 = 0b01#2 → op = 0x19#8 ∨ op = 0x1B#8 →
    p0.extractLsb' 2 2 ≠ 0b00#2 ∨ p1.getLsbD 2 = false ∨ p2.getLsbD 3 = false ∨ p2.getLsbD 4 = true ∨
      (op = 0x19#8 ∧ p2.extractLsb' 5 2 ≠ 0b01#2 ∧ p2.extractLsb' 5 2 ≠ 0b10#2) ∨
      (op = 0x1B#8 ∧ p2.extractLsb' 5 2 ≠ 0b10#2) ∨
      (p2.getLsbD 7 = true ∧ (modrm.extractLsb' 6 2 ≠ 0b11#2 ∨ p2.extractLsb' 0 3 = 0b000#3)) →
    decode (pre.map LegacyPrefix.byte ++ 0x62#8 :: p0 :: p1 :: p2 :: op :: modrm :: bytes) =
      if 15 ≤ pre.length + 6 + bytes.length ∧ 15 < pre.length + 5 + tailLength (modrm :: bytes) then .tooLong
      else .undefinedOpcode) ∧
  (∀ (pre : List LegacyPrefix) (p0 p1 p2 op : Byte) (bytes : List Byte),
    p0.extractLsb' 2 2 ≠ 0b00#2 ∨ p1.getLsbD 2 = false →
    p0.extractLsb' 0 2 ≠ 0b11#2 ∨ p1.extractLsb' 0 2 ≠ 0b01#2 ∨ (op ≠ 0x19#8 ∧ op ≠ 0x1B#8) →
    decode (pre.map LegacyPrefix.byte ++ 0x62#8 :: p0 :: p1 :: p2 :: op :: bytes) =
      if 15 < pre.length + 5 then .tooLong else .undefinedOpcode)

/-- A 66, F2, F3, F0 or REX byte anywhere among the bytes before VEX or EVEX decodes to #UD, whatever follows. Only a
length over 15 bytes outranks it: the verdict is "too long" only if 15 bytes are there and the bytes up to the opcode
with the operand bytes are more, and it is that if they are more and the bytes are of one of the five mnemonics
(30_encoding.md section 1, 60_exceptions.md section 4; log 12). -/
def Obligations.ForbiddenPrefixIsInvalid : Prop :=
  ∀ (ps qs : List Byte) (f : Byte),
    (∀ p ∈ ps ++ qs, (legacyPrefixOf p).isSome = true ∨ forbiddenPrefix p = true) → forbiddenPrefix f = true →
    (∀ bytes : List Byte, decode (ps ++ f :: qs ++ 0xC4#8 :: bytes) = .undefinedOpcode ∨
      (15 ≤ ps.length + qs.length + 2 + bytes.length ∧ 15 < ps.length + qs.length + 5 + tailLength (bytes.drop 3) ∧
        decode (ps ++ f :: qs ++ 0xC4#8 :: bytes) = .tooLong)) ∧
    (∀ bytes : List Byte, decode (ps ++ f :: qs ++ 0x62#8 :: bytes) = .undefinedOpcode ∨
      (15 ≤ ps.length + qs.length + 2 + bytes.length ∧ 15 < ps.length + qs.length + 6 + tailLength (bytes.drop 4) ∧
        decode (ps ++ f :: qs ++ 0x62#8 :: bytes) = .tooLong)) ∧
    (∀ (b1 b2 : Byte) (bytes : List Byte), b1.extractLsb' 0 5 = 0b00011#5 → b2.extractLsb' 0 2 = 0b01#2 →
      15 ≤ ps.length + qs.length + 5 + bytes.length → 15 < ps.length + qs.length + 5 + tailLength bytes →
      decode (ps ++ f :: qs ++ 0xC4#8 :: b1 :: b2 :: 0x19#8 :: bytes) = .tooLong) ∧
    (∀ (p0 p1 p2 op : Byte) (bytes : List Byte), p0.extractLsb' 0 2 = 0b11#2 → p1.extractLsb' 0 2 = 0b01#2 →
      op = 0x19#8 ∨ op = 0x1B#8 → 15 ≤ ps.length + qs.length + 6 + bytes.length →
      15 < ps.length + qs.length + 6 + tailLength bytes →
      decode (ps ++ f :: qs ++ 0x62#8 :: p0 :: p1 :: p2 :: op :: bytes) = .tooLong)

/-- An instruction longer than 15 bytes is #GP(0), at decode and in its meaning in every mode but the 32-bit ones, which
the model leaves out (30_encoding.md section 1; 60_exceptions.md section 4; log 4, log 15). -/
def Obligations.LongInstructionIsGeneralProtection : Prop :=
  (∀ (i : Instr) (rest : List Byte), i.dstWf = true → 15 < i.length → decode (encode i ++ rest) = .tooLong) ∧
  (∀ (i : Instr) (s : State), 15 < i.length → mode32 s = false → exec i s = .fault (.raised gp0)) ∧
  (∀ (s : State), s.fault = none → s.mode = .long64 → decode (fetchWindow s) = .tooLong →
    step s = .fault (.raised gp0))

/-- Bytes that are none of the five mnemonics decode to "out of scope", after any legacy prefixes: another first byte;
VEX with another map, pp or opcode; EVEX with its reserved bits right and another map, pp or opcode (30_encoding.md
sections 6 and 7). -/
def Obligations.OtherBytesAreOutOfScope : Prop :=
  (∀ (pre : List LegacyPrefix) (b : Byte) (bytes : List Byte), pre.length ≤ 14 → legacyPrefixOf b = none →
    forbiddenPrefix b = false → b ≠ 0xC4#8 → b ≠ 0x62#8 →
    decode (pre.map LegacyPrefix.byte ++ b :: bytes) = .outOfScope) ∧
  (∀ (pre : List LegacyPrefix) (b1 b2 op : Byte) (bytes : List Byte), pre.length ≤ 11 →
    b1.extractLsb' 0 5 ≠ 0b00011#5 ∨ b2.extractLsb' 0 2 ≠ 0b01#2 ∨ op ≠ 0x19#8 →
    decode (pre.map LegacyPrefix.byte ++ 0xC4#8 :: b1 :: b2 :: op :: bytes) = .outOfScope) ∧
  (∀ (pre : List LegacyPrefix) (p0 p1 p2 op : Byte) (bytes : List Byte), pre.length ≤ 10 →
    p0.extractLsb' 2 2 = 0b00#2 → p1.getLsbD 2 = true →
    p0.extractLsb' 0 2 ≠ 0b11#2 ∨ p1.extractLsb' 0 2 ≠ 0b01#2 ∨ (op ≠ 0x19#8 ∧ op ≠ 0x1B#8) →
    decode (pre.map LegacyPrefix.byte ++ 0x62#8 :: p0 :: p1 :: p2 :: op :: bytes) = .outOfScope)

/-- Words of 30_encoding.md R304, R306 and R312, one for each row, decode to what the assembler wrote them for. -/
def Obligations.SpecWordsDecode : Prop :=
  decode [0xC4#8, 0x43#8, 0x7D#8, 0x19#8, 0xD1#8, 0x00#8] = .instr (.vextractf128 [] (.reg 9#4) 10#4 0#8) ∧
  decode [0x62#8, 0xF3#8, 0x7D#8, 0x29#8, 0x19#8, 0xD1#8, 0x01#8] =
    .instr (.vextractf32x4Ymm [] { aaa := 1#3, z := false } (.reg 1#5) 2#5 1#8) ∧
  decode [0x62#8, 0x23#8, 0x7D#8, 0xCA#8, 0x19#8, 0xF1#8, 0x02#8] =
    .instr (.vextractf32x4Zmm [] { aaa := 2#3, z := true } (.reg 17#5) 30#5 2#8) ∧
  decode [0x62#8, 0xF3#8, 0xFD#8, 0xA9#8, 0x19#8, 0xD1#8, 0x01#8] =
    .instr (.vextractf64x2Ymm [] { aaa := 1#3, z := true } (.reg 1#5) 2#5 1#8) ∧
  decode [0x62#8, 0xF3#8, 0xFD#8, 0x49#8, 0x19#8, 0x54#8, 0x8B#8, 0x02#8, 0x02#8] =
    .instr (.vextractf64x2Zmm [] { aaa := 1#3, z := false } (.mem (.sib 3#4 1#4 2#2 (.disp8 2#8))) 2#5 2#8) ∧
  decode [0x62#8, 0xF3#8, 0x7D#8, 0xC9#8, 0x1B#8, 0xD1#8, 0x01#8] =
    .instr (.vextractf32x8 [] { aaa := 1#3, z := true } (.reg 1#5) 2#5 1#8) ∧
  decode [0x62#8, 0x63#8, 0xFD#8, 0x4F#8, 0x1B#8, 0x7E#8, 0xFF#8, 0x01#8] =
    .instr (.vextractf64x4 [] { aaa := 7#3, z := false } (.mem (.base 6#4 (.disp8 255#8))) 31#5 1#8)

/-! ## The step -/

/-- When the bytes at `rip` decode to an instruction, the step is `exec` of it at the same state: `rip` has not moved
(40_vextractf.md section 1, R405). -/
def Obligations.StepRunsDecodedInstruction : Prop :=
  ∀ (s : State) (i : Instr), s.fault = none → s.mode = .long64 → decode (fetchWindow s) = .instr i →
    step s = exec i s

/-- Every other verdict of the decoder stops the step: #UD, #GP(0) for the length, a refusal for bytes out of scope, and
where a byte is missing a refusal if an in-scope store wrote it and the model's fault if nothing did (30_encoding.md
section 6; 20_memory.md section 7; log 8, log 9, log 19). -/
def Obligations.StepStopsOnOtherVerdicts : Prop :=
  ∀ (s : State), s.fault = none → s.mode = .long64 →
    (decode (fetchWindow s) = .undefinedOpcode → step s = .fault (.raised ud)) ∧
    (decode (fetchWindow s) = .tooLong → step s = .fault (.raised gp0)) ∧
    (decode (fetchWindow s) = .outOfScope → step s = .refused .outOfScope) ∧
    (decode (fetchWindow s) = .truncated →
      let a := s.rip + BitVec.ofNat 64 (fetchWindow s).length
      if a.toNat ∈ s.stored then step s = .refused (.selfModifying a) else step s = .fault (.fetchUnwritten a))

/-- A step that answers a next state has run an instruction none of whose bytes an in-scope store has written, and all
of whose bytes have a value (20_memory.md section 7, R243). -/
def Obligations.StepNeverRunsStoredBytes : Prop :=
  ∀ (s t : State), step s = .next t →
    ∃ i, decode (fetchWindow s) = .instr i ∧ ∀ j < i.length,
      (s.rip + BitVec.ofNat 64 j).toNat ∉ s.stored ∧
        Memory.read s.mem (s.rip + BitVec.ofNat 64 j).toNat = (fetchWindow s)[j]?

/-- A step that answers a next state moves `rip` past the instruction, without a wrap and into the canonical range
(10_state.md section 4, R121). -/
def Obligations.StepAdvancesRip : Prop :=
  ∀ (s t : State), step s = .next t →
    ∃ i, decode (fetchWindow s) = .instr i ∧ t.rip.toNat = s.rip.toNat + i.length ∧
      canonical s.vaBits t.rip = true

/-- A fault is precise and terminal: after a step that raises one, the machine has the record and is otherwise as before
(a page fault also leaves its address in CR2), the next step answers the same fault, and no further step changes
anything (60_exceptions.md sections 2 and 5; log 10). -/
def Obligations.FaultIsPreciseAndTerminal : Prop :=
  ∀ (s : State) (r : FaultRecord), s.fault = none → step s = .fault (.raised r) →
    (∃ a, afterStep s = { s with fault := some r, cr2 := a } ∧
      (r.kind = .pageFault → r.addr = some a) ∧ (r.kind ≠ .pageFault → a = s.cr2)) ∧
    step (afterStep s) = .fault (.raised r) ∧ afterStep (afterStep s) = afterStep s

/-- Outside 64-bit mode: the step refuses, for want of decoding rules; the meanings refuse in the 32-bit modes and raise
#UD in real-address and virtual-8086 mode (60_exceptions.md sections 2 and 6; log 4). -/
def Obligations.OtherModes : Prop :=
  (∀ (s : State), s.fault = none → s.mode ≠ .long64 → step s = .refused .modeOutOfScope) ∧
  (∀ (i : Instr) (s : State), s.mode = .legacyProtected ∨ s.mode = .compatibility →
    exec i s = .refused .modeOutOfScope) ∧
  (∀ (i : Instr) (s : State), s.mode = .real ∨ s.mode = .virtual8086 → i.length ≤ 15 →
    exec i s = .fault (.raised ud))

/-- One instruction loaded with withFetchWord is what the next step fetches, wherever `rip` is (log 2, log 18). -/
def Obligations.LoadedWordIsFetched : Prop :=
  ∀ (s : State) (nbits w : Nat), fetchWindow (s.withFetchWord nbits w) = tableBytes nbits w

/-! ## Invariants of every step -/

/-- Every step keeps the canonical form: memory and the stored addresses in rising order, every stored address holding a
byte (10_state.md section 7; log 8, log 9). -/
def Obligations.StepKeepsCanonicalForm : Prop :=
  ∀ (s t : State), s.wf = true → step s = .next t → t.wf = true

/-- The state after reset has the canonical form. -/
def Obligations.ResetHasCanonicalForm : Prop := State.reset.wf = true

/-- No step changes an opmask or general register, a segment base, a flags, status or control register, the mode, the
privilege level, a parameter or the fault record (10_state.md sections 2, 3, 5, 6). -/
def Obligations.StepKeepsSystemState : Prop :=
  ∀ (s t : State), step s = .next t → sameSystem s t

/-- The launch premises the state shows hold after every step if they held before (92_eei_decisions.md, "Launch premises
collected"). -/
def Obligations.StepKeepsLaunchPremises : Prop :=
  ∀ (s t : State), launchPremises s = true → step s = .next t → launchPremises t = true

/-- The state after reset meets the launch premises: 64-bit mode, the vector state enabled, the four feature flags set,
alignment checking off, no fault recorded (00_scope.md section 4; 70_reset_and_hazards.md section 1). The register
values that make it so are logs 3 and 5. -/
def Obligations.ResetMeetsLaunchPremises : Prop :=
  State.reset.mode = .long64 ∧ State.reset.fault = none ∧
    State.reset.features = { avx := true, avx512f := true, avx512vl := true, avx512dq := true } ∧
    osVecEnabled false State.reset = true ∧ osVecEnabled true State.reset = true ∧
    alignmentChecking State.reset = false

/-! ## Selection and masking -/

/-- `Select128` (40_vextractf.md R401): lane `n` of 128 bits, `n` being imm8[0] for a 256-bit source and imm8[1:0] for a
512-bit one. -/
def Obligations.SelectOneOfFourLanes : Prop :=
  (∀ (src : BitVec 256) (imm : Byte) (b : Nat), b < 128 →
    (select128 src imm).getLsbD b = src.getLsbD (128 * (imm.extractLsb' 0 1).toNat + b)) ∧
  (∀ (src : BitVec 512) (imm : Byte) (b : Nat), b < 128 →
    (select128 src imm).getLsbD b = src.getLsbD (128 * (imm.extractLsb' 0 2).toNat + b))

/-- `Select256` (40_vextractf.md R402): lane imm8[0] of 256 bits. -/
def Obligations.SelectOneOfTwoLanes : Prop :=
  ∀ (src : BitVec 512) (imm : Byte) (b : Nat), b < 256 →
    (select256 src imm).getLsbD b = src.getLsbD (256 * (imm.extractLsb' 0 1).toNat + b)

/-- `MaskedRegResult` (40_vextractf.md R403), element by element, for both lane widths and both element sizes: selected
elements from the lane, the others kept or zeroed, every bit from W up zero; the old value matters only when a writemask
is named and masking is merging. -/
def Obligations.MaskedResultByElement : Prop :=
  ∀ (s : State) (W E : Nat) (tmp : BitVec W) (old : Zmm) (aaa : BitVec 3) (z : Bool), W = 128 ∨ W = 256 →
    E = 32 ∨ E = 64 →
    (∀ j < W / E, (maskedRegResult old tmp E (selected s aaa) z).extractLsb' (j * E) E =
      if aaa = 0 ∨ (readK s aaa).getLsbD j = true then tmp.extractLsb' (j * E) E
      else if z = false then old.extractLsb' (j * E) E
      else 0#E) ∧
    (∀ b, W ≤ b → (maskedRegResult old tmp E (selected s aaa) z).getLsbD b = false) ∧
    (aaa = 0 ∨ z = true → ∀ old', maskedRegResult old' tmp E (selected s aaa) z =
      maskedRegResult old tmp E (selected s aaa) z)

/-- The masked store at `la` (40_vextractf.md section 1, 20_memory.md section 4): the bytes of a selected element are
its value, least significant first; the bytes of any other element, and every byte outside the operand, read as before.
Bytes past 2^64 - 1 go on at 0 (log 26). -/
def Obligations.MaskedStoreByElement : Prop :=
  ∀ (s : State) (W E : Nat) (tmp : BitVec W) (la : Word) (aaa : BitVec 3), W = 128 ∨ W = 256 → E = 32 ∨ E = 64 →
    (∀ j < W / E, ∀ b < E / 8,
      Memory.read (store s (maskedWrites la tmp E (selected s aaa))).mem (la + BitVec.ofNat 64 (j * (E / 8) + b)).toNat =
        if aaa = 0 ∨ (readK s aaa).getLsbD j = true then some ((tmp.extractLsb' (j * E) E).extractLsb' (8 * b) 8)
        else Memory.read s.mem (la + BitVec.ofNat 64 (j * (E / 8) + b)).toNat) ∧
    (∀ a, outside la (W / 8) a →
      Memory.read (store s (maskedWrites la tmp E (selected s aaa))).mem a = Memory.read s.mem a)

/-- A store of `n` bytes puts bits 8i+7 to 8i of the value at address `la + i` (20_memory.md section 2).
Bytes past 2^64 - 1 go on at 0 (log 26). -/
def Obligations.StoreIsLittleEndian : Prop :=
  ∀ (s : State) (w n : Nat) (v : BitVec w) (la : Word) (i : Nat), n ≤ 2 ^ 64 → i < n →
    Memory.read (store s (byteWrites la n v)).mem (la + BitVec.ofNat 64 i).toNat = some (v.extractLsb' (8 * i) 8)

/-! ## The instructions: where each completes, and with what result -/

/-- VEXTRACTF128, register destination: the lane imm8[0] of the YMM source, zero above it (40_vextractf.md section 2,
R410). It completes whenever it is Ready. -/
def Obligations.Vextractf128RegisterResult : Prop :=
  ∀ (s : State) (pre : List LegacyPrefix) (d src : BitVec 4) (imm : Byte),
    Ready (.vextractf128 pre (.reg d) src imm) s →
    ∃ t, exec (.vextractf128 pre (.reg d) src imm) s = .next t ∧
      (∀ b < 128, (readZmm t (d.setWidth 5)).getLsbD b =
        (readZmm s (src.setWidth 5)).getLsbD (128 * (imm.toNat % 2) + b)) ∧
      (∀ b, 128 ≤ b → (readZmm t (d.setWidth 5)).getLsbD b = false) ∧
      t.rip = s.rip + BitVec.ofNat 64 (vexLength pre (.reg d : Dst 4))

/-- VEXTRACTF128, memory destination: the 16 bytes at the operand's address become the lane, every other byte stays
(40_vextractf.md section 2, R410). A one-byte displacement is not scaled.
Bytes past 2^64 - 1 go on at 0 (log 26). -/
def Obligations.Vextractf128MemoryResult : Prop :=
  ∀ (s : State) (pre : List LegacyPrefix) (m : MemOp) (src : BitVec 4) (imm : Byte),
    let la := linAddr s pre 1 (vexLength pre (.mem m)) m
    Ready (.vextractf128 pre (.mem m) src imm) s → operandCanonical s la 16 = true → accessAnswer s la 16 = .ok →
    ∃ t, exec (.vextractf128 pre (.mem m) src imm) s = .next t ∧
      (∀ b < 16, Memory.read t.mem (la + BitVec.ofNat 64 b).toNat =
        some ((readZmm s (src.setWidth 5)).extractLsb' (128 * (imm.toNat % 2) + 8 * b) 8)) ∧
      (∀ a, outside la 16 a → Memory.read t.mem a = Memory.read s.mem a) ∧
      t.rip = s.rip + BitVec.ofNat 64 (vexLength pre (.mem m))

/-- VEXTRACTF32x4, register destination: 32-bit elements of lane imm8[0] (YMM source) or imm8[1:0] (ZMM source) under
the writemask, zero from bit 128 up (40_vextractf.md section 2, R411 and R412). -/
def Obligations.Vextractf32x4RegisterResult : Prop :=
  ∀ (s : State) (pre : List LegacyPrefix) (wm : WriteMask) (d src : BitVec 5) (imm : Byte),
    (Ready (.vextractf32x4Ymm pre wm (.reg d) src imm) s →
      ∃ t, exec (.vextractf32x4Ymm pre wm (.reg d) src imm) s = .next t ∧
        (∀ b < 128, (readZmm t d).getLsbD b = resultBit s wm 32 (128 * (imm.toNat % 2)) src d b) ∧
        (∀ b, 128 ≤ b → (readZmm t d).getLsbD b = false) ∧
        t.rip = s.rip + BitVec.ofNat 64 (evexLength pre (.reg d))) ∧
    (Ready (.vextractf32x4Zmm pre wm (.reg d) src imm) s →
      ∃ t, exec (.vextractf32x4Zmm pre wm (.reg d) src imm) s = .next t ∧
        (∀ b < 128, (readZmm t d).getLsbD b = resultBit s wm 32 (128 * (imm.toNat % 4)) src d b) ∧
        (∀ b, 128 ≤ b → (readZmm t d).getLsbD b = false) ∧
        t.rip = s.rip + BitVec.ofNat 64 (evexLength pre (.reg d)))

/-- VEXTRACTF32x4, memory destination: the selected 32-bit elements of the lane are stored, every other byte stays; a
one-byte displacement is scaled by 16 (40_vextractf.md section 2, R411 and R412).
Bytes past 2^64 - 1 go on at 0 (log 26). -/
def Obligations.Vextractf32x4MemoryResult : Prop :=
  ∀ (s : State) (pre : List LegacyPrefix) (wm : WriteMask) (m : MemOp) (src : BitVec 5) (imm : Byte),
    let la := linAddr s pre 16 (evexLength pre (.mem m)) m
    operandCanonical s la 16 = true → accessAnswer s la 16 = .ok →
    (Ready (.vextractf32x4Ymm pre wm (.mem m) src imm) s →
      ∃ t, exec (.vextractf32x4Ymm pre wm (.mem m) src imm) s = .next t ∧
        (∀ b < 16, Memory.read t.mem (la + BitVec.ofNat 64 b).toNat =
          resultByte s wm 32 (128 * (imm.toNat % 2)) src la b) ∧
        (∀ a, outside la 16 a → Memory.read t.mem a = Memory.read s.mem a) ∧
        t.rip = s.rip + BitVec.ofNat 64 (evexLength pre (.mem m))) ∧
    (Ready (.vextractf32x4Zmm pre wm (.mem m) src imm) s →
      ∃ t, exec (.vextractf32x4Zmm pre wm (.mem m) src imm) s = .next t ∧
        (∀ b < 16, Memory.read t.mem (la + BitVec.ofNat 64 b).toNat =
          resultByte s wm 32 (128 * (imm.toNat % 4)) src la b) ∧
        (∀ a, outside la 16 a → Memory.read t.mem a = Memory.read s.mem a) ∧
        t.rip = s.rip + BitVec.ofNat 64 (evexLength pre (.mem m)))

/-- VEXTRACTF64x2, register destination: 64-bit elements of lane imm8[0] (YMM source) or imm8[1:0] (ZMM source) under
the writemask, zero from bit 128 up (40_vextractf.md section 2, R413 and R414). -/
def Obligations.Vextractf64x2RegisterResult : Prop :=
  ∀ (s : State) (pre : List LegacyPrefix) (wm : WriteMask) (d src : BitVec 5) (imm : Byte),
    (Ready (.vextractf64x2Ymm pre wm (.reg d) src imm) s →
      ∃ t, exec (.vextractf64x2Ymm pre wm (.reg d) src imm) s = .next t ∧
        (∀ b < 128, (readZmm t d).getLsbD b = resultBit s wm 64 (128 * (imm.toNat % 2)) src d b) ∧
        (∀ b, 128 ≤ b → (readZmm t d).getLsbD b = false) ∧
        t.rip = s.rip + BitVec.ofNat 64 (evexLength pre (.reg d))) ∧
    (Ready (.vextractf64x2Zmm pre wm (.reg d) src imm) s →
      ∃ t, exec (.vextractf64x2Zmm pre wm (.reg d) src imm) s = .next t ∧
        (∀ b < 128, (readZmm t d).getLsbD b = resultBit s wm 64 (128 * (imm.toNat % 4)) src d b) ∧
        (∀ b, 128 ≤ b → (readZmm t d).getLsbD b = false) ∧
        t.rip = s.rip + BitVec.ofNat 64 (evexLength pre (.reg d)))

/-- VEXTRACTF64x2, memory destination: the selected 64-bit elements of the lane are stored, every other byte stays; a
one-byte displacement is scaled by 16 (40_vextractf.md section 2, R413 and R414).
Bytes past 2^64 - 1 go on at 0 (log 26). -/
def Obligations.Vextractf64x2MemoryResult : Prop :=
  ∀ (s : State) (pre : List LegacyPrefix) (wm : WriteMask) (m : MemOp) (src : BitVec 5) (imm : Byte),
    let la := linAddr s pre 16 (evexLength pre (.mem m)) m
    operandCanonical s la 16 = true → accessAnswer s la 16 = .ok →
    (Ready (.vextractf64x2Ymm pre wm (.mem m) src imm) s →
      ∃ t, exec (.vextractf64x2Ymm pre wm (.mem m) src imm) s = .next t ∧
        (∀ b < 16, Memory.read t.mem (la + BitVec.ofNat 64 b).toNat =
          resultByte s wm 64 (128 * (imm.toNat % 2)) src la b) ∧
        (∀ a, outside la 16 a → Memory.read t.mem a = Memory.read s.mem a) ∧
        t.rip = s.rip + BitVec.ofNat 64 (evexLength pre (.mem m))) ∧
    (Ready (.vextractf64x2Zmm pre wm (.mem m) src imm) s →
      ∃ t, exec (.vextractf64x2Zmm pre wm (.mem m) src imm) s = .next t ∧
        (∀ b < 16, Memory.read t.mem (la + BitVec.ofNat 64 b).toNat =
          resultByte s wm 64 (128 * (imm.toNat % 4)) src la b) ∧
        (∀ a, outside la 16 a → Memory.read t.mem a = Memory.read s.mem a) ∧
        t.rip = s.rip + BitVec.ofNat 64 (evexLength pre (.mem m)))

/-- VEXTRACTF32x8 and VEXTRACTF64x4, register destination: 32-bit or 64-bit elements of the 256-bit lane imm8[0] under
the writemask, zero from bit 256 up (40_vextractf.md section 2, R415 and R416). -/
def Obligations.Vextract256RegisterResult : Prop :=
  ∀ (s : State) (pre : List LegacyPrefix) (wm : WriteMask) (d src : BitVec 5) (imm : Byte),
    (Ready (.vextractf32x8 pre wm (.reg d) src imm) s →
      ∃ t, exec (.vextractf32x8 pre wm (.reg d) src imm) s = .next t ∧
        (∀ b < 256, (readZmm t d).getLsbD b = resultBit s wm 32 (256 * (imm.toNat % 2)) src d b) ∧
        (∀ b, 256 ≤ b → (readZmm t d).getLsbD b = false) ∧
        t.rip = s.rip + BitVec.ofNat 64 (evexLength pre (.reg d))) ∧
    (Ready (.vextractf64x4 pre wm (.reg d) src imm) s →
      ∃ t, exec (.vextractf64x4 pre wm (.reg d) src imm) s = .next t ∧
        (∀ b < 256, (readZmm t d).getLsbD b = resultBit s wm 64 (256 * (imm.toNat % 2)) src d b) ∧
        (∀ b, 256 ≤ b → (readZmm t d).getLsbD b = false) ∧
        t.rip = s.rip + BitVec.ofNat 64 (evexLength pre (.reg d)))

/-- VEXTRACTF32x8 and VEXTRACTF64x4, memory destination: the selected elements of the 256-bit lane are stored, every
other byte stays; a one-byte displacement is scaled by 32 (40_vextractf.md section 2, R415 and R416).
Bytes past 2^64 - 1 go on at 0 (log 26). -/
def Obligations.Vextract256MemoryResult : Prop :=
  ∀ (s : State) (pre : List LegacyPrefix) (wm : WriteMask) (m : MemOp) (src : BitVec 5) (imm : Byte),
    let la := linAddr s pre 32 (evexLength pre (.mem m)) m
    operandCanonical s la 32 = true → accessAnswer s la 32 = .ok →
    (Ready (.vextractf32x8 pre wm (.mem m) src imm) s →
      ∃ t, exec (.vextractf32x8 pre wm (.mem m) src imm) s = .next t ∧
        (∀ b < 32, Memory.read t.mem (la + BitVec.ofNat 64 b).toNat =
          resultByte s wm 32 (256 * (imm.toNat % 2)) src la b) ∧
        (∀ a, outside la 32 a → Memory.read t.mem a = Memory.read s.mem a) ∧
        t.rip = s.rip + BitVec.ofNat 64 (evexLength pre (.mem m))) ∧
    (Ready (.vextractf64x4 pre wm (.mem m) src imm) s →
      ∃ t, exec (.vextractf64x4 pre wm (.mem m) src imm) s = .next t ∧
        (∀ b < 32, Memory.read t.mem (la + BitVec.ofNat 64 b).toNat =
          resultByte s wm 64 (256 * (imm.toNat % 2)) src la b) ∧
        (∀ a, outside la 32 a → Memory.read t.mem a = Memory.read s.mem a) ∧
        t.rip = s.rip + BitVec.ofNat 64 (evexLength pre (.mem m)))

/-- A memory form whose mask bits are all zero completes, writes nothing and moves `rip` (30_encoding.md section 7,
20_memory.md section 4). -/
def Obligations.ZeroMaskStoreWritesNothing : Prop :=
  ∀ (i : Instr) (m : MemOp) (s : State), i.destMem = some m → Ready i s → Storable i m s → i.mask.aaa ≠ 0 →
    (∀ j < i.laneBits / i.elementBits, (readK s i.mask.aaa).getLsbD j = false) →
    exec i s = .next { s with rip := s.rip + BitVec.ofNat 64 i.length }

/-! ## What an instruction leaves alone -/

/-- Every write to a vector register is of all 512 bits: below the lane width the result, above it zero, in the VEX form
and in every EVEX form, under merging as well as zeroing (10_state.md R103). -/
def Obligations.RegisterWriteZeroesUpperBits : Prop :=
  ∀ (i : Instr) (d : BitVec 5) (s t : State), i.destReg = some d → exec i s = .next t →
    (∀ b < i.laneBits, (readZmm t d).getLsbD b = resultBit s i.mask i.elementBits i.laneStart i.srcReg d b) ∧
    (∀ b, i.laneBits ≤ b → (readZmm t d).getLsbD b = false)

/-- The frame of the register forms of all seven encodings: every other vector register, every other register and
parameter, and every byte of memory is unchanged. -/
def Obligations.RegisterFormFrame : Prop :=
  ∀ (i : Instr) (d : BitVec 5) (s t : State), i.destReg = some d → exec i s = .next t →
    (∀ r, r ≠ d → readZmm t r = readZmm s r) ∧ sameSystem s t ∧ t.stored = s.stored ∧
      ∀ a, Memory.read t.mem a = Memory.read s.mem a

/-- The frame of the memory forms of all seven encodings: every vector register, every other register and parameter, and
every byte of memory outside the 16 or 32 bytes of the operand is unchanged. The operand's address is the one the
meaning computes: effective address plus segment base, the one-byte displacement scaled by 1, 16 or 32; its bytes past
2^64 - 1 go on at 0 (log 26). The note of stored addresses gains the address of every byte of an element that is written,
and nothing else (20_memory.md section 7; log 9). -/
def Obligations.MemoryFormFrame : Prop :=
  ∀ (i : Instr) (m : MemOp) (s t : State), i.destMem = some m → exec i s = .next t →
    (∀ r, readZmm t r = readZmm s r) ∧ sameSystem s t ∧
      (∀ a, outside (linAddr s i.pre i.dispScale i.length m) (i.laneBits / 8) a →
        Memory.read t.mem a = Memory.read s.mem a) ∧
      ∀ a, a ∈ t.stored ↔ a ∈ s.stored ∨
        ∃ b < i.laneBits / 8, writesElement i s (8 * b / i.elementBits) = true ∧
          a = (linAddr s i.pre i.dispScale i.length m + BitVec.ofNat 64 b).toNat

/-- Only the mask bits of the elements matter, and with no writemask (VEXTRACTF128, and aaa = 000b) none does: with other
opmask registers that agree on those bits, an instruction answers the same, but for the opmask registers themselves,
which stay (10_state.md section 2, R111 and R112). -/
def Obligations.HigherMaskBitsAreIgnored : Prop :=
  ∀ (i : Instr) (s : State) (k : Vector Word 8),
    (i.mask.aaa ≠ 0 → ∀ j < i.laneBits / i.elementBits,
      (readK { s with k := k } i.mask.aaa).getLsbD j = (readK s i.mask.aaa).getLsbD j) →
    exec i { s with k := k } = mapNext (fun t => { t with k := k }) (exec i s)

/-- No instruction reads data memory: over another memory, it stops in the same way or completes with the same
registers, and each byte is then either untouched in both or written with one value in both (20_memory.md section 1,
R213). -/
def Obligations.NoDataMemoryIsRead : Prop :=
  ∀ (i : Instr) (s : State) (mem : Memory),
    (∀ t, exec i s = .next t → ∃ t', exec i { s with mem := mem } = .next t' ∧ t'.zmm = t.zmm ∧ t'.rip = t.rip ∧
      ∀ a, (Memory.read t.mem a = Memory.read s.mem a ∧ Memory.read t'.mem a = Memory.read mem a) ∨
        Memory.read t'.mem a = Memory.read t.mem a) ∧
    (∀ f, exec i s = .fault f → exec i { s with mem := mem } = .fault f) ∧
    (∀ r, exec i s = .refused r → exec i { s with mem := mem } = .refused r)

/-- A 256-bit source is read only in its low 256 bits (rows 1, 2 and 4), in the register and the memory form: with other
bits above, an instruction answers the same, but for the source register itself, which keeps the other bits unless it is
the destination (40_vextractf.md section 2, R410 and R411). -/
def Obligations.UpperSourceBitsAreIgnored : Prop :=
  ∀ (i : Instr) (s : State) (v : Zmm), i.row = 1 ∨ i.row = 2 ∨ i.row = 4 →
    v.extractLsb' 0 256 = (readZmm s i.srcReg).extractLsb' 0 256 →
    exec i (writeZmm s i.srcReg v) =
      mapNext (fun t => if i.destReg = some i.srcReg then t else writeZmm t i.srcReg v) (exec i s)

/-- The bits of the immediate that a form does not read may have any value: two bits are read in rows 3 and 5, one in
the others (30_encoding.md section 5, R320). -/
def Obligations.IgnoredImmediateBits : Prop :=
  ∀ (i : Instr) (imm : Byte) (s : State),
    (if i.row = 3 ∨ i.row = 5 then imm.extractLsb' 0 2 = i.imm.extractLsb' 0 2
      else imm.extractLsb' 0 1 = i.imm.extractLsb' 0 1) →
    exec (i.withImm imm) s = exec i s ∧ (i.withImm imm).wf = i.wf

/-- With no writemask, VEXTRACTF64x2 does what VEXTRACTF32x4 does on the same operands, for both source widths, and
leaves in the destination register what VEXTRACTF128 leaves there (40_vextractf.md section 2, R413). -/
def Obligations.UnmaskedFormsAgree : Prop :=
  ∀ (s : State) (pre : List LegacyPrefix) (dst : Dst 5) (src : BitVec 5) (imm : Byte),
    s.features = { avx := true, avx512f := true, avx512vl := true, avx512dq := true } →
    exec (.vextractf64x2Ymm pre { aaa := 0, z := false } dst src imm) s =
      exec (.vextractf32x4Ymm pre { aaa := 0, z := false } dst src imm) s ∧
    exec (.vextractf64x2Zmm pre { aaa := 0, z := false } dst src imm) s =
      exec (.vextractf32x4Zmm pre { aaa := 0, z := false } dst src imm) s ∧
    ∀ (d4 src4 : BitVec 4) (t u : State),
      exec (.vextractf128 pre (.reg d4) src4 imm) s = .next t →
      exec (.vextractf32x4Ymm pre { aaa := 0, z := false } (.reg (d4.setWidth 5)) (src4.setWidth 5) imm) s = .next u →
      t.zmm = u.zmm

/-! ## Faults and refusals -/

/-- A CPUID flag that the opcode table lists and that is clear raises #UD, in every mode but the 32-bit ones, unless the
instruction is too long (60_exceptions.md sections 2 and 4, R604). -/
def Obligations.MissingFeatureRaisesInvalidOpcode : Prop :=
  ∀ (i : Instr) (s : State), mode32 s = false → i.length ≤ 15 → i.flagsSet s.features = false →
    exec i s = .fault (.raised ud)

/-- Vector state that is not enabled raises #UD; with it enabled, CR0.TS = 1 raises #NM: CR4.OSXSAVE and XCR0[2:1] for
VEX, XCR0[7:5] too for EVEX whatever the vector length (60_exceptions.md sections 2 and 4, R605 to R607). -/
def Obligations.DisabledStateFaults : Prop :=
  ∀ (i : Instr) (s : State), s.mode = .long64 → i.length ≤ 15 →
    (s.cr4.getLsbD 18 = false ∨ s.xcr0.extractLsb' 1 2 ≠ 0b11#2 ∨
        (i.evex = true ∧ s.xcr0.extractLsb' 5 3 ≠ 0b111#3) → exec i s = .fault (.raised ud)) ∧
    (s.cr4.getLsbD 18 = true → s.xcr0.extractLsb' 1 2 = 0b11#2 →
        (i.evex = true → s.xcr0.extractLsb' 5 3 = 0b111#3) → i.flagsSet s.features = true → i.maskLegal = true →
        s.cr0.getLsbD 3 = true → exec i s = .fault (.raised nm))

/-- Zeroing with a memory destination or with no writemask raises #UD in the meanings as at decode (30_encoding.md
section 7, R341; log 15). -/
def Obligations.IllegalZeroingRaisesInvalidOpcode : Prop :=
  ∀ (i : Instr) (s : State), mode32 s = false → i.length ≤ 15 → i.maskLegal = false → exec i s = .fault (.raised ud)

/-- A memory form of which some byte's address is not canonical, which is when bits 63 down to VA_BITS - 1 are not all
equal, raises #SS(0) or #GP(0), whatever the mask: #SS when no FS or GS override is in force and the base register is RSP
or RBP (20_memory.md section 5, R224 and R225; log 13). Bytes past 2^64 - 1 go on at 0 (log 26). -/
def Obligations.NonCanonicalOperandFaults : Prop :=
  ∀ (i : Instr) (m : MemOp) (s : State) (b k : Nat), i.destMem = some m → Ready i s → b < i.laneBits / 8 →
    s.vaBits - 1 ≤ k → k < 64 →
    (destAddr i m s + BitVec.ofNat 64 b).getLsbD k ≠ (destAddr i m s + BitVec.ofNat 64 b).getLsbD 63 →
    exec i s = .fault (.raised
      (if fsOrGs i.pre = false ∧ (baseReg m = some 4#4 ∨ baseReg m = some 5#4) then ss0 else gp0))

/-- A canonical operand that Access refuses raises #PF whatever the mask, with the write bit of the error code set and
the reported address in the operand (20_memory.md section 6, R230; 60_exceptions.md R608; log 17).
Bytes past 2^64 - 1 go on at 0 (log 26). -/
def Obligations.RefusedAccessPageFaults : Prop :=
  ∀ (i : Instr) (m : MemOp) (s : State), i.destMem = some m → Ready i s →
    (∀ b < i.laneBits / 8, canonical s.vaBits (destAddr i m s + BitVec.ofNat 64 b) = true) →
    accessAnswer s (destAddr i m s) (i.laneBits / 8) ≠ .ok →
    ∃ (code : BitVec 32) (b : Nat), b < i.laneBits / 8 ∧ code.getLsbD 1 = true ∧
      accessAnswer s (destAddr i m s) (i.laneBits / 8) =
        .pageFault code (destAddr i m s + BitVec.ofNat 64 b) ∧
      exec i s = .fault (.raised { kind := .pageFault, code := some code, addr := some (destAddr i m s + BitVec.ofNat 64 b) })

/-- A register form raises no memory fault: it faults with #UD, #NM, or #GP(0) for its length, and never otherwise
(60_exceptions.md section 2, R608). -/
def Obligations.RegisterFormHasNoMemoryFault : Prop :=
  ∀ (i : Instr) (d : BitVec 5) (s : State) (f : Fault), i.destReg = some d → exec i s = .fault f →
    f = .raised ud ∨ f = .raised nm ∨ (f = .raised gp0 ∧ 15 < i.length)

/-- The closed list of faults: whatever a meaning faults with is #UD or #NM without a code, #SS(0), #GP(0), or #PF with a
code whose write bit is set; the last and #SS(0) only in a memory form (60_exceptions.md section 2, R610). -/
def Obligations.FaultListIsClosed : Prop :=
  ∀ (i : Instr) (s : State) (f : Fault), exec i s = .fault f →
    f = .raised ud ∨ f = .raised nm ∨ f = .raised gp0 ∨
      (f = .raised ss0 ∧ i.destMem.isSome = true) ∨
      ∃ code a, f = .raised (pf code a) ∧ code.getLsbD 1 = true ∧ i.destMem.isSome = true

/-- The only refusals of a meaning are a 32-bit mode and a placement that wraps or leaves the canonical range; the
second happens exactly so once the other checks pass (10_state.md section 4, R121; log 4, log 11). -/
def Obligations.RefusalsOfMeanings : Prop :=
  (∀ (i : Instr) (s : State) (r : Refusal), exec i s = .refused r →
    (r = .modeOutOfScope ∧ (s.mode = .legacyProtected ∨ s.mode = .compatibility)) ∨
      (r = .placement ∧ (canonical s.vaBits s.rip = false ∨ 2 ^ 64 ≤ s.rip.toNat + i.length ∨
        canonical s.vaBits (s.rip + BitVec.ofNat 64 i.length) = false))) ∧
  (∀ (i : Instr) (s : State), osVecEnabled i.evex s = true → i.flagsSet s.features = true → i.maskLegal = true →
    i.length ≤ 15 → placed i.length s = false → exec i s = .refused .placement)

/-! ## Addresses -/

/-- The effective address of each operand shape without prefix 67, with each displacement (20_memory.md section 5, R221
to R223): base plus displacement; `rip + len` plus displacement; base plus index times scale plus displacement, where
index number 0100b means no index; the same without a base. A one-byte displacement is sign-extended and scaled by `N`,
a four-byte one sign-extended. -/
def Obligations.EffectiveAddressForms : Prop :=
  ∀ (s : State) (pre : List LegacyPrefix) (N len : Nat) (b x : BitVec 4) (scale : BitVec 2) (d8 : Byte) (d : BitVec 32),
    LegacyPrefix.addrSize ∉ pre →
    let index : Word := if x = 4#4 then 0 else readGpr s x * BitVec.ofNat 64 (2 ^ scale.toNat)
    effAddr s pre N len (.base b .absent) = readGpr s b ∧
    effAddr s pre N len (.base b (.disp8 d8)) = readGpr s b + d8.signExtend 64 * BitVec.ofNat 64 N ∧
    effAddr s pre N len (.base b (.disp32 d)) = readGpr s b + d.signExtend 64 ∧
    effAddr s pre N len (.ripRel d) = s.rip + BitVec.ofNat 64 len + d.signExtend 64 ∧
    effAddr s pre N len (.sib b x scale .absent) = readGpr s b + index ∧
    effAddr s pre N len (.sib b x scale (.disp8 d8)) =
      readGpr s b + index + d8.signExtend 64 * BitVec.ofNat 64 N ∧
    effAddr s pre N len (.sib b x scale (.disp32 d)) = readGpr s b + index + d.signExtend 64 ∧
    effAddr s pre N len (.sibNoBase x scale d) = index + d.signExtend 64

/-- Under prefix 67 the effective address is 32 bits wide, zero-extended, and the sum modulo 2^32 of what it would be
without the prefix; it depends on the low 32 bits of the registers alone (20_memory.md section 5, R224). -/
def Obligations.AddressSizePrefix : Prop :=
  ∀ (s : State) (pre : List LegacyPrefix) (N len : Nat) (m : MemOp), LegacyPrefix.addrSize ∈ pre →
    effAddr s pre N len m = ((effAddr s [] N len m).setWidth 32).setWidth 64 ∧
    ∀ s' : State, (∀ r, (readGpr s' r).setWidth 32 = (readGpr s r).setWidth 32) →
      s'.rip.setWidth 32 = s.rip.setWidth 32 → effAddr s' pre N len m = effAddr s pre N len m

/-- The linear address is the effective address plus the segment base, modulo 2^64. The segment base is FS_BASE or
GS_BASE when the last segment prefix is that one, 0 when it is another or there is none (20_memory.md section 5, R224;
10_state.md section 6, R141; log 13). -/
def Obligations.SegmentBaseOfLastPrefix : Prop :=
  ∀ (s : State) (pre post : List LegacyPrefix) (p : LegacyPrefix), (∀ q ∈ post, q = .addrSize) →
    (segBase s (pre ++ .fs :: post) = s.fsBase) ∧ (segBase s (pre ++ .gs :: post) = s.gsBase) ∧
    (p ≠ .fs → p ≠ .gs → p ≠ .addrSize → segBase s (pre ++ p :: post) = 0) ∧ segBase s post = 0 ∧
    (∀ (N len : Nat) (m : MemOp), linAddr s pre N len m = effAddr s pre N len m + segBase s pre) ∧
    ∀ (i : Instr) (m : MemOp), destAddr i m s = effAddr s i.pre i.dispScale i.length m + segBase s i.pre

/-- An address is canonical when bits 63 down to VA_BITS - 1 are all equal (20_memory.md section 5, R225), for every
VA_BITS from 1 up (for 0 the model asks it of all bits: log 6). -/
def Obligations.CanonicalAddressBits : Prop :=
  ∀ (vaBits : Nat) (a : Word),
    canonical vaBits a = true ↔ ∀ k, vaBits - 1 ≤ k → k < 64 → a.getLsbD k = a.getLsbD 63
end

