-- ==== Sys2Proof/Laws/Decode.lean ====
section
/-! SUPPORT. Decoding piece by piece: each reader of Decode gives back what the encoder's part for it wrote, and leaves
the bytes after it. -/

namespace Sys2Proof

@[simp] theorem legacyPrefixOf_byte (p : LegacyPrefix) : legacyPrefixOf p.byte = some p := by cases p <;> decide

/-- The prefixes at the front are read back, up to the first byte that is no prefix. -/
theorem scanPrefixes_map (pre : List LegacyPrefix) (b : Byte) (bs : List Byte) (h : legacyPrefixOf b = none)
    (hf : forbiddenPrefix b = false) :
    scanPrefixes (pre.map LegacyPrefix.byte ++ b :: bs) = (pre, false, b :: bs) := by
  induction pre with
  | nil => simp [scanPrefixes, h, hf]
  | cons p pre ih => simp [scanPrefixes, ih]

@[simp] theorem length_bytesOfDisp32 (d : BitVec 32) : (bytesOfDisp32 d).length = 4 := rfl

theorem takeDisp32_bytes (d : BitVec 32) (rest : List Byte) :
    takeDisp32 (bytesOfDisp32 d ++ rest) = some (d, rest) := by
  have h : (d.extractLsb' 24 8 ++ d.extractLsb' 16 8 ++ d.extractLsb' 8 8 ++ d.extractLsb' 0 8 : BitVec 32) = d := by
    apply BitVec.eq_of_getLsbD_eq
    intro i hi
    simp only [BitVec.getLsbD_append, BitVec.getLsbD_extractLsb']
    by_cases h1 : i < 8
    · simp [h1]
    · by_cases h2 : i < 16
      · have : i - 8 < 8 := by omega
        have e : 8 + (i - 8) = i := by omega
        simp [h1, this, e]
      · by_cases h3 : i < 24
        · have a : ¬ i - 8 < 8 := by omega
          have b : i - 8 - 8 < 8 := by omega
          have e : 16 + (i - 8 - 8) = i := by omega
          simp [h1, a, b, e]
        · have a : ¬ i - 8 < 8 := by omega
          have b : ¬ i - 8 - 8 < 8 := by omega
          have c : i - 8 - 8 - 8 < 8 := by omega
          have e : 24 + (i - 8 - 8 - 8) = i := by omega
          simp [h1, a, b, c, e]
  simp only [bytesOfDisp32, List.cons_append, List.nil_append, takeDisp32]
  exact congrArg (fun x => some (x, rest)) h

theorem takeDisp_bytes (d : Disp) (rest : List Byte) : takeDisp d.mod (d.bytes ++ rest) = some (d, rest) := by
  cases d with
  | absent => simp [takeDisp, Disp.mod, Disp.bytes]
  | disp8 d => simp [takeDisp, Disp.mod, Disp.bytes]
  | disp32 d => simp [takeDisp, Disp.mod, Disp.bytes, takeDisp32_bytes]

theorem ofBool_append_extract4 (b : BitVec 4) : BitVec.ofBool (b.getLsbD 3) ++ b.extractLsb' 0 3 = b := by
  revert b; decide

theorem sib_scale (s : BitVec 2) (i b : BitVec 3) : (s ++ i ++ b : BitVec 8).extractLsb' 6 2 = s := by
  revert s i b; decide

theorem sib_index (s : BitVec 2) (i b : BitVec 3) : (s ++ i ++ b : BitVec 8).extractLsb' 3 3 = i := by
  revert s i b; decide

theorem sib_base (s : BitVec 2) (i b : BitVec 3) : (s ++ i ++ b : BitVec 8).extractLsb' 0 3 = b := by
  revert s i b; decide

theorem Disp.mod_eq_zero {d : Disp} : d.mod = 0b00#2 ↔ d = .absent := by cases d <;> simp [Disp.mod]

theorem Disp.mod_ne_three (d : Disp) : d.mod ≠ 0b11#2 := by cases d <;> simp [Disp.mod]

/-- A well-formed memory operand is read back from its fields. -/
theorem takeMem_rmFields (m : MemOp) (rest : List Byte) (h : m.wf = true) :
    takeMem m.rmFields.x m.rmFields.b m.rmFields.mod m.rmFields.rm (m.rmFields.rest ++ rest) = some (m, rest) := by
  cases m with
  | base b d =>
    simp only [MemOp.wf, Bool.and_eq_true, bne_iff_ne, Bool.or_eq_true] at h
    have h2 : ¬ (d.mod = 0b00#2 ∧ b.extractLsb' 0 3 = 0b101#3) := by
      rw [Disp.mod_eq_zero]; tauto
    simp only [takeMem, MemOp.rmFields, if_neg h.1, if_neg h2, takeDisp_bytes, Option.map_some,
      ofBool_append_extract4]
  | ripRel d =>
    simp [takeMem, MemOp.rmFields, takeDisp32_bytes]
  | sib b index scale d =>
    simp only [MemOp.wf, Bool.or_eq_true, bne_iff_ne] at h
    have h2 : ¬ (d.mod = 0b00#2 ∧ b.extractLsb' 0 3 = 0b101#3) := by
      rw [Disp.mod_eq_zero]; tauto
    simp only [takeMem, MemOp.rmFields, if_true, List.cons_append, sib_scale, sib_index, sib_base, if_neg h2,
      takeDisp_bytes, Option.map_some, ofBool_append_extract4]
  | sibNoBase index scale d =>
    simp only [takeMem, MemOp.rmFields, if_true, List.cons_append, sib_scale, sib_index, sib_base, and_self,
      takeDisp32_bytes, Option.map_some, ofBool_append_extract4]

theorem MemOp.rmFields_mod_ne (m : MemOp) : m.rmFields.mod ≠ 0b11#2 := by
  cases m <;> simp [MemOp.rmFields, Disp.mod_ne_three]

theorem takeDst_rmFields {w : Nat} (dst : Dst w) (regNo : BitVec 3 → BitVec w) (rest : List Byte)
    (hreg : ∀ d, dst = .reg d → regNo (d.extractLsb' 0 3) = d) (h : dst.wf = true) :
    takeDst regNo dst.rmFields.x dst.rmFields.b dst.rmFields.mod dst.rmFields.rm (dst.rmFields.rest ++ rest) =
      some (dst, rest) := by
  cases dst with
  | reg d => simp [takeDst, Dst.rmFields, hreg d rfl]
  | mem m =>
    simp only [takeDst, Dst.rmFields, if_neg m.rmFields_mod_ne, takeMem_rmFields m rest h, Option.map_some]

/-- ModRM, the destination and the immediate are read back. -/
theorem readOperands_operandBytes {w : Nat} (dst : Dst w) (regNo : BitVec 3 → BitVec w) (reg : BitVec 3) (imm : Byte)
    (rest : List Byte) (hreg : ∀ d, dst = .reg d → regNo (d.extractLsb' 0 3) = d) (h : dst.wf = true) :
    readOperands regNo dst.rmFields.x dst.rmFields.b (operandBytes reg dst.rmFields imm ++ rest) =
      some (reg, dst, imm) := by
  have := takeDst_rmFields dst regNo (imm :: rest) hreg h
  simp only [operandBytes, List.cons_append, List.append_assoc, List.nil_append, readOperands, sib_scale, sib_index,
    sib_base, this]

/-! ## Lengths -/

theorem Disp.length_bytes (d : Disp) : d.bytes.length = d.length := by cases d <;> rfl

theorem MemOp.length_rest (m : MemOp) : m.rmFields.rest.length = m.length := by
  cases m <;> simp [MemOp.rmFields, MemOp.length, Disp.length_bytes, Nat.add_comm]

theorem Dst.length_rest {w : Nat} (dst : Dst w) : dst.rmFields.rest.length = dst.length := by
  cases dst with
  | reg d => rfl
  | mem m => exact m.length_rest

theorem length_encodeVex (pre : List LegacyPrefix) (dst : Dst 4) (src : BitVec 4) (imm : Byte) :
    (encodeVex pre dst src imm).length = vexLength pre dst := by
  simp [encodeVex, operandBytes, vexLength, Dst.length_rest]; omega

theorem length_encodeEvex (op : Byte) (w : Bool) (ll : BitVec 2) (pre : List LegacyPrefix) (wm : WriteMask) (dst : Dst 5)
    (src : BitVec 5) (imm : Byte) : (encodeEvex op w ll pre wm dst src imm).length = evexLength pre dst := by
  simp [encodeEvex, operandBytes, evexLength, Dst.length_rest]; omega

/-! ## The bytes in front -/

theorem legacyPrefixOf_vexByte : legacyPrefixOf 0xC4#8 = none := by decide
theorem legacyPrefixOf_evexByte : legacyPrefixOf 0x62#8 = none := by decide
theorem forbiddenPrefix_vexByte : forbiddenPrefix 0xC4#8 = false := by decide
theorem forbiddenPrefix_evexByte : forbiddenPrefix 0x62#8 = false := by decide

/-- Only prefixes: nothing is left. -/
theorem scanPrefixes_only (pre : List LegacyPrefix) :
    scanPrefixes (pre.map LegacyPrefix.byte) = (pre, false, []) := by
  induction pre with
  | nil => rfl
  | cons p pre ih => simp [scanPrefixes, ih]

/-- Decoding after legal prefixes: what it does with the first byte that is none, in the 15-byte window (30_encoding.md
R332). -/
theorem decode_after_prefixes (pre : List LegacyPrefix) (b : Byte) (bs : List Byte) (h : legacyPrefixOf b = none)
    (hf : forbiddenPrefix b = false) :
    decode (pre.map LegacyPrefix.byte ++ b :: bs) =
      if 15 ≤ pre.length then .tooLong else
      let full := decide (15 ≤ pre.length + 1 + bs.length)
      if b = 0xC4#8 then decodeVex full pre (bs.take (14 - pre.length))
      else if b = 0x62#8 then decodeEvex full pre (bs.take (14 - pre.length))
      else .outOfScope := by
  by_cases hp : 15 ≤ pre.length
  · have h1 : (pre.map LegacyPrefix.byte ++ b :: bs).take 15 = (pre.take 15).map LegacyPrefix.byte := by
      rw [List.take_append_of_le_length (by simpa using hp), List.map_take]
    have h2 : 15 ≤ (pre.map LegacyPrefix.byte ++ b :: bs).length := by simp; omega
    simp only [decode, Config.maxInsnLen, h1, scanPrefixes_only, h2, hp, decide_true, if_true, ranOut]
  · have h1 : (pre.map LegacyPrefix.byte ++ b :: bs).take 15 =
        pre.map LegacyPrefix.byte ++ b :: bs.take (14 - pre.length) := by
      rw [List.take_append]
      have : 15 - (pre.map LegacyPrefix.byte).length = (14 - pre.length) + 1 := by simp; omega
      rw [this, List.take_succ_cons, List.take_of_length_le (by simp; omega)]
    have h2 : (pre.map LegacyPrefix.byte ++ b :: bs).length = pre.length + 1 + bs.length := by simp; omega
    simp only [decode, Config.maxInsnLen, h1, scanPrefixes_map pre b _ h hf, h2, if_neg hp]
    rfl

/-! ## The fields of the VEX and EVEX bytes read back -/

theorem ofBool_append_extract5 (d : BitVec 5) :
    BitVec.ofBool (d.getLsbD 4) ++ BitVec.ofBool (d.getLsbD 3) ++ d.extractLsb' 0 3 = d := by
  revert d; decide

/-- VEX byte 1: the map, R, X and B. -/
theorem vexByte1_fields (a b c : Bool) :
    let p : BitVec 8 := BitVec.ofBool a ++ BitVec.ofBool b ++ BitVec.ofBool c ++ 0b00011#5
    p.extractLsb' 0 5 = 0b00011#5 ∧ p.getLsbD 7 = a ∧ p.getLsbD 6 = b ∧ p.getLsbD 5 = c := by
  revert a b c; decide

/-- P0: mm, the reserved bits, R, X, B and R'. -/
theorem evexP0_fields (a b c d : Bool) :
    let p : BitVec 8 := BitVec.ofBool a ++ BitVec.ofBool b ++ BitVec.ofBool c ++ BitVec.ofBool d ++ 0b0011#4
    p.extractLsb' 0 2 = 0b11#2 ∧ p.extractLsb' 2 2 = 0b00#2 ∧ p.getLsbD 7 = a ∧ p.getLsbD 6 = b ∧ p.getLsbD 5 = c ∧
      p.getLsbD 4 = d := by
  revert a b c d; decide

/-- P1: pp, U, vvvv and W. -/
theorem evexP1_fields (w : Bool) :
    let p : BitVec 8 := BitVec.ofBool w ++ 0b1111101#7
    p.extractLsb' 0 2 = 0b01#2 ∧ p.getLsbD 2 = true ∧ p.extractLsb' 3 4 = 0b1111#4 ∧ p.getLsbD 7 = w := by
  revert w; decide

/-- P2: aaa, z, L'L, V' and b. -/
theorem evexP2_fields (z : Bool) (ll : BitVec 2) (aaa : BitVec 3) :
    let p : BitVec 8 := BitVec.ofBool z ++ ll ++ 0b01#2 ++ aaa
    p.extractLsb' 0 3 = aaa ∧ p.getLsbD 7 = z ∧ p.extractLsb' 5 2 = ll ∧ p.getLsbD 3 = true ∧ p.getLsbD 4 = false := by
  revert z ll aaa; decide

theorem length_operandBytes {w : Nat} (reg : BitVec 3) (dst : Dst w) (imm : Byte) :
    (operandBytes reg dst.rmFields imm).length = dst.length + 2 := by
  simp [operandBytes, Dst.length_rest]

/-! ## What a reader that answers has read

Each splits its bytes into the ones it read and the rest, and reads the same from any bytes that begin with them. -/

theorem takeDisp32_inv {bs r : List Byte} {d : BitVec 32} (h : takeDisp32 bs = some (d, r)) :
    ∃ u, u.length = 4 ∧ bs = u ++ r ∧ ∀ r', takeDisp32 (u ++ r') = some (d, r') := by
  match bs, h with
  | d0 :: d1 :: d2 :: d3 :: bs, h =>
    simp only [takeDisp32, Option.some.injEq, Prod.mk.injEq] at h
    obtain ⟨rfl, rfl⟩ := h
    exact ⟨[d0, d1, d2, d3], rfl, rfl, fun r' => rfl⟩

theorem takeDisp_inv {mod : BitVec 2} {bs r : List Byte} {d : Disp} (h : takeDisp mod bs = some (d, r)) :
    (d = .absent → mod ≠ 0b01#2 ∧ mod ≠ 0b10#2) ∧
      ∃ u, u.length = d.length ∧ bs = u ++ r ∧ ∀ r', takeDisp mod (u ++ r') = some (d, r') := by
  unfold takeDisp at h
  split at h
  · rename_i hm
    match bs, h with
    | b :: bs, h =>
      simp only [Option.some.injEq, Prod.mk.injEq] at h
      obtain ⟨rfl, rfl⟩ := h
      exact ⟨by simp, [b], rfl, rfl, fun r' => by simp [takeDisp, hm]⟩
  · split at h
    · rename_i hm
      simp only [Option.map_eq_some_iff, Prod.mk.injEq] at h
      obtain ⟨⟨d', r''⟩, h1, rfl, rfl⟩ := h
      obtain ⟨u, hu, rfl, hr⟩ := takeDisp32_inv h1
      exact ⟨by simp, u, hu, rfl, fun r' => by simp [takeDisp, hm, hr]⟩
    · rename_i h1 h2
      simp only [Option.some.injEq, Prod.mk.injEq] at h
      obtain ⟨rfl, rfl⟩ := h
      exact ⟨fun _ => ⟨h1, h2⟩, [], rfl, rfl, fun r' => by simp [takeDisp, h1, h2]⟩

theorem extract3_ofBool_append (b : Bool) (x : BitVec 3) :
    (BitVec.ofBool b ++ x : BitVec 4).extractLsb' 0 3 = x := by
  revert b x; decide

/-- A memory operand that was read is well-formed. -/
theorem takeMem_inv {x b : Bool} {mod : BitVec 2} {rm : BitVec 3} {bs r : List Byte} {m : MemOp} (hmod : mod ≠ 0b11#2)
    (h : takeMem x b mod rm bs = some (m, r)) :
    m.wf = true ∧ ∃ u, u.length = m.length ∧ bs = u ++ r ∧ ∀ r', takeMem x b mod rm (u ++ r') = some (m, r') := by
  have four : ∀ m : BitVec 2, m ≠ 0b11#2 → m ≠ 0b01#2 → m ≠ 0b10#2 → m = 0b00#2 := by decide
  have habs : ∀ d : Disp, (d = .absent → mod ≠ 0b01#2 ∧ mod ≠ 0b10#2) → d = .absent → mod = 0b00#2 := by
    intro d hd h; exact four mod hmod (hd h).1 (hd h).2
  unfold takeMem at h
  split at h
  · rename_i hrm
    match bs, h with
    | s :: bs, h =>
      simp only at h
      split at h
      · rename_i hb
        simp only [Option.map_eq_some_iff, Prod.mk.injEq] at h
        obtain ⟨⟨d', r''⟩, h1, rfl, rfl⟩ := h
        obtain ⟨u, hu, rfl, hr⟩ := takeDisp32_inv h1
        refine ⟨rfl, s :: u, by simp [hu, MemOp.length], rfl, fun r' => ?_⟩
        simp only [takeMem, hrm, if_true, List.cons_append, if_pos hb, hr, Option.map_some]
      · rename_i hb
        simp only [Option.map_eq_some_iff, Prod.mk.injEq] at h
        obtain ⟨⟨d', r''⟩, h1, rfl, rfl⟩ := h
        obtain ⟨ha, u, hu, rfl, hr⟩ := takeDisp_inv h1
        refine ⟨?_, s :: u, by simp [hu, MemOp.length, Nat.add_comm], rfl, fun r' => ?_⟩
        · simp only [MemOp.wf, extract3_ofBool_append, Bool.or_eq_true, bne_iff_ne]
          by_cases hd : d' = .absent
          · right; exact fun e => hb ⟨habs d' ha hd, e⟩
          · left; exact hd
        · simp only [takeMem, hrm, if_true, List.cons_append, if_neg hb, hr, Option.map_some]
  · rename_i hrm
    split at h
    · rename_i hb
      simp only [Option.map_eq_some_iff, Prod.mk.injEq] at h
      obtain ⟨⟨d', r''⟩, h1, rfl, rfl⟩ := h
      obtain ⟨u, hu, rfl, hr⟩ := takeDisp32_inv h1
      refine ⟨rfl, u, by simp [hu, MemOp.length], rfl, fun r' => ?_⟩
      simp only [takeMem, if_neg hrm, if_pos hb, hr, Option.map_some]
    · rename_i hb
      simp only [Option.map_eq_some_iff, Prod.mk.injEq] at h
      obtain ⟨⟨d', r''⟩, h1, rfl, rfl⟩ := h
      obtain ⟨ha, u, hu, rfl, hr⟩ := takeDisp_inv h1
      refine ⟨?_, u, by simp [hu, MemOp.length], rfl, fun r' => ?_⟩
      · simp only [MemOp.wf, extract3_ofBool_append, Bool.and_eq_true, Bool.or_eq_true, bne_iff_ne]
        refine ⟨hrm, ?_⟩
        by_cases hd : d' = .absent
        · right; exact fun e => hb ⟨habs d' ha hd, e⟩
        · left; exact hd
      · simp only [takeMem, if_neg hrm, if_neg hb, hr, Option.map_some]

theorem takeDst_inv {w : Nat} {regNo : BitVec 3 → BitVec w} {x b : Bool} {mod : BitVec 2} {rm : BitVec 3}
    {bs r : List Byte} {dst : Dst w} (h : takeDst regNo x b mod rm bs = some (dst, r)) :
    dst.wf = true ∧ (mod = 0b11#2 ↔ ∃ d, dst = .reg d) ∧
      ∃ u, u.length = dst.length ∧ bs = u ++ r ∧ ∀ r', takeDst regNo x b mod rm (u ++ r') = some (dst, r') := by
  unfold takeDst at h
  split at h
  · rename_i hm
    simp only [Option.some.injEq, Prod.mk.injEq] at h
    obtain ⟨rfl, rfl⟩ := h
    exact ⟨rfl, by simp [hm], [], rfl, rfl, fun r' => by simp [takeDst, hm]⟩
  · rename_i hm
    simp only [Option.map_eq_some_iff, Prod.mk.injEq] at h
    obtain ⟨⟨d', r''⟩, h1, rfl, rfl⟩ := h
    obtain ⟨hw, u, hu, rfl, hr⟩ := takeMem_inv hm h1
    exact ⟨hw, by simp [hm], u, hu, rfl, fun r' => by simp [takeDst, hm, hr]⟩

theorem readOperands_inv {w : Nat} {regNo : BitVec 3 → BitVec w} {x b : Bool} {bs : List Byte} {reg : BitVec 3}
    {dst : Dst w} {imm : Byte} (h : readOperands regNo x b bs = some (reg, dst, imm)) :
    dst.wf = true ∧ (∃ modrm tl, bs = modrm :: tl ∧ (modrm.extractLsb' 6 2 = 0b11#2 ↔ ∃ d, dst = .reg d)) ∧
      ∃ u r, u.length = dst.length + 2 ∧ bs = u ++ r ∧
        ∀ r', readOperands regNo x b (u ++ r') = some (reg, dst, imm) := by
  unfold readOperands at h
  split at h
  · cases h
  · rename_i modrm bs
    split at h
    · rename_i dst' imm' tl heq
      simp only [Option.some.injEq, Prod.mk.injEq] at h
      obtain ⟨rfl, rfl, rfl⟩ := h
      obtain ⟨hw, hm, u, hu, rfl, hr⟩ := takeDst_inv heq
      refine ⟨hw, ⟨_, _, rfl, hm⟩, modrm :: u ++ [imm'], tl, by simp [hu], by simp, fun r' => ?_⟩
      simp [readOperands, hr]
    · cases h

/-! ## When there are bytes enough -/

theorem takeDisp_of_length {mod : BitVec 2} {bs : List Byte} (h : 4 ≤ bs.length) :
    ∃ d r, takeDisp mod bs = some (d, r) ∧ bs.length ≤ r.length + 4 := by
  match bs, h with
  | a :: b :: c :: d :: bs, _ =>
    unfold takeDisp
    split
    · exact ⟨_, _, rfl, by simp⟩
    · split
      · exact ⟨_, _, rfl, by simp⟩
      · exact ⟨_, _, rfl, by simp⟩

theorem takeMem_of_length {x b : Bool} {mod : BitVec 2} {rm : BitVec 3} {bs : List Byte} (h : 5 ≤ bs.length) :
    ∃ m r, takeMem x b mod rm bs = some (m, r) ∧ bs.length ≤ r.length + 5 := by
  unfold takeMem
  split
  · match bs, h with
    | s :: bs, h =>
      simp only
      have h' : 4 ≤ bs.length := by simpa using h
      split
      · match bs, h' with
        | a :: b :: c :: d :: bs, _ => exact ⟨_, _, rfl, by simp⟩
      · obtain ⟨d, r, hd, hl⟩ := takeDisp_of_length (mod := mod) h'
        rw [hd]; exact ⟨_, _, rfl, by simpa using hl⟩
  · split
    · match bs, h with
      | a :: b :: c :: d :: bs, _ => exact ⟨_, _, rfl, by simp⟩
    · obtain ⟨d, r, hd, hl⟩ := takeDisp_of_length (mod := mod) (bs := bs) (by omega)
      rw [hd]; exact ⟨_, _, rfl, by simp; omega⟩

/-- Seven bytes hold any ModRM, SIB, displacement and immediate. -/
theorem readOperands_of_length {w : Nat} {regNo : BitVec 3 → BitVec w} {x b : Bool} {bs : List Byte}
    (h : 7 ≤ bs.length) : ∃ v, readOperands regNo x b bs = some v := by
  match bs, h with
  | m :: bs, h =>
    have h' : 6 ≤ bs.length := by simpa using h
    have : ∃ d i r, takeDst regNo x b (m.extractLsb' 6 2) (m.extractLsb' 0 3) bs = some (d, i :: r) := by
      unfold takeDst
      split
      · match bs, h' with
        | i :: bs, _ => exact ⟨_, _, _, rfl⟩
      · obtain ⟨d, r, hd, hl⟩ := takeMem_of_length (x := x) (b := b) (mod := m.extractLsb' 6 2) (rm := m.extractLsb' 0 3) (bs := bs) (by omega)
        rw [hd]
        match r, hl with
        | i :: r, _ => exact ⟨_, _, _, rfl⟩
        | [], hl => simp at hl; omega
    obtain ⟨d, i, r, hd⟩ := this
    exact ⟨(m.extractLsb' 3 3, d, i), by simp only [readOperands, hd]⟩

/-! ## How many bytes the operands take (30_encoding.md R300; 20_memory.md R221) -/

/-- Bytes of the displacement that `mod` calls for beside a base register. -/
def dispLength (mod : BitVec 2) : Nat := if mod = 0b01#2 then 1 else if mod = 0b10#2 then 4 else 0

theorem isSome_takeDisp32 (bs : List Byte) : (takeDisp32 bs).isSome = decide (4 ≤ bs.length) := by
  match bs with
  | [] => rfl
  | [_] => rfl
  | [_, _] => rfl
  | [_, _, _] => rfl
  | _ :: _ :: _ :: _ :: bs => simp [takeDisp32]

theorem isSome_takeDisp (mod : BitVec 2) (bs : List Byte) :
    (takeDisp mod bs).isSome = decide (dispLength mod ≤ bs.length) := by
  unfold takeDisp dispLength
  split
  · cases bs <;> simp
  · split
    · simp [isSome_takeDisp32]
    · simp

theorem length_of_takeDisp {mod : BitVec 2} {bs r : List Byte} {d : Disp} (h : takeDisp mod bs = some (d, r)) :
    d.length = dispLength mod := by
  unfold takeDisp at h
  unfold dispLength
  split at h
  · rename_i hm
    rw [if_pos hm]
    cases bs with
    | nil => cases h
    | cons b bs => cases h; rfl
  · rename_i hm
    rw [if_neg hm]
    split at h
    · rename_i hm
      rw [if_pos hm]
      obtain ⟨a, -, ha⟩ := Option.map_eq_some_iff.1 h
      cases ha; rfl
    · rename_i hm
      rw [if_neg hm]
      cases h; rfl

/-- Bytes of SIB and displacement of a memory operand, from the bytes after ModRM. -/
def memLength (mod : BitVec 2) (rm : BitVec 3) (bs : List Byte) : Nat :=
  if rm = 0b100#3 then
    1 + (if mod = 0b00#2 ∧ (bs.getD 0 0).extractLsb' 0 3 = 0b101#3 then 4 else dispLength mod)
  else if mod = 0b00#2 ∧ rm = 0b101#3 then 4
  else dispLength mod

theorem isSome_takeMem (x b : Bool) (mod : BitVec 2) (rm : BitVec 3) (bs : List Byte) :
    (takeMem x b mod rm bs).isSome = decide (memLength mod rm bs ≤ bs.length) := by
  unfold takeMem memLength
  split
  · cases bs with
    | nil => simp
    | cons s bs =>
      simp only [List.getD_cons_zero, List.length_cons]
      split <;> simp only [Option.isSome_map, isSome_takeDisp32, isSome_takeDisp, decide_eq_decide] <;> omega
  · split <;> simp [isSome_takeDisp32, isSome_takeDisp]

theorem length_of_takeMem {x b : Bool} {mod : BitVec 2} {rm : BitVec 3} {bs r : List Byte} {m : MemOp}
    (h : takeMem x b mod rm bs = some (m, r)) : m.length = memLength mod rm bs := by
  unfold takeMem at h
  unfold memLength
  split at h
  · rename_i hrm
    rw [if_pos hrm]
    cases bs with
    | nil => cases h
    | cons s bs =>
      simp only [List.getD_cons_zero] at h ⊢
      split at h
      · rename_i hb
        rw [if_pos hb]
        obtain ⟨a, -, ha⟩ := Option.map_eq_some_iff.1 h
        cases ha; rfl
      · rename_i hb
        rw [if_neg hb]
        obtain ⟨a, ht, ha⟩ := Option.map_eq_some_iff.1 h
        cases ha
        exact congrArg (1 + ·) (length_of_takeDisp ht)
  · rename_i hrm
    rw [if_neg hrm]
    split at h
    · rename_i hb
      rw [if_pos hb]
      obtain ⟨a, -, ha⟩ := Option.map_eq_some_iff.1 h
      cases ha; rfl
    · rename_i hb
      rw [if_neg hb]
      obtain ⟨a, ht, ha⟩ := Option.map_eq_some_iff.1 h
      cases ha
      exact length_of_takeDisp ht

theorem tailLength_cons (modrm : Byte) (bs : List Byte) :
    tailLength (modrm :: bs) =
      if modrm.extractLsb' 6 2 = 0b11#2 then 2
      else 2 + memLength (modrm.extractLsb' 6 2) (modrm.extractLsb' 0 3) bs := by
  have four : ∀ m : BitVec 2, m ≠ 0b11#2 → m = 0b00#2 ∨ m = 0b01#2 ∨ m = 0b10#2 := by decide
  simp only [tailLength, memLength, dispLength, List.getD_cons_zero, List.getD_cons_succ]
  split
  · rfl
  · rename_i h3
    rcases four _ h3 with h | h | h
    · by_cases h4 : modrm.extractLsb' 0 3 = 0b100#3
      · by_cases hb : (bs.getD 0 0).extractLsb' 0 3 = 0b101#3 <;> simp only [h, h4, hb] <;> decide
      · by_cases h5 : modrm.extractLsb' 0 3 = 0b101#3
        · simp [h, h5]
        · simp [h, h4, h5]
    · by_cases h4 : modrm.extractLsb' 0 3 = 0b100#3 <;> simp [h, h4]
    · by_cases h4 : modrm.extractLsb' 0 3 = 0b100#3 <;> simp [h, h4]

theorem two_le_tailLength (bs : List Byte) : 2 ≤ tailLength bs := by
  unfold tailLength; simp only; split <;> omega

theorem tailLength_le (bs : List Byte) : tailLength bs ≤ 7 := by
  unfold tailLength; simp only; repeat' split
  all_goals omega

/-- The operands are read exactly when all their bytes are there. -/
theorem isSome_readOperands {w : Nat} (regNo : BitVec 3 → BitVec w) (x b : Bool) (bs : List Byte) :
    (readOperands regNo x b bs).isSome = decide (tailLength bs ≤ bs.length) := by
  cases bs with
  | nil => have := two_le_tailLength []; simp [readOperands]; omega
  | cons modrm bs =>
    rw [tailLength_cons]
    simp only [readOperands, takeDst]
    split
    · rename_i dst imm tl heq
      symm; simp only [Option.isSome_some, decide_eq_true_eq, List.length_cons]
      split at heq
      · cases heq; simp_all
      · rename_i hm
        rw [if_neg hm]
        obtain ⟨a, ht, ha⟩ := Option.map_eq_some_iff.1 heq
        obtain ⟨m, r⟩ := a
        cases ha
        obtain ⟨-, u, hu, hbs, -⟩ := takeMem_inv hm ht
        rw [← length_of_takeMem ht, ← hu, hbs]
        simp; omega
    · rename_i hno
      symm; simp only [Option.isSome_none, decide_eq_false_iff_not, List.length_cons]
      intro hle
      split at hno
      · rename_i hm
        rw [if_pos hm] at hle
        cases bs with
        | nil => simp at hle
        | cons i tl => exact hno _ _ _ rfl
      · rename_i hm
        rw [if_neg hm] at hle
        have hs := isSome_takeMem x b (modrm.extractLsb' 6 2) (modrm.extractLsb' 0 3) bs
        have hle' : memLength (modrm.extractLsb' 6 2) (modrm.extractLsb' 0 3) bs ≤ bs.length := by omega
        rw [decide_eq_true hle', Option.isSome_iff_exists] at hs
        obtain ⟨⟨m, r⟩, ht⟩ := hs
        obtain ⟨-, u, hu, hbs, -⟩ := takeMem_inv hm ht
        have hl := length_of_takeMem ht
        rw [ht] at hno
        cases r with
        | nil =>
          have := congrArg List.length hbs
          simp at this; omega
        | cons i tl => exact hno _ _ _ rfl

/-- The operands that are read take as many bytes as the bytes say. -/
theorem length_of_readOperands {w : Nat} {regNo : BitVec 3 → BitVec w} {x b : Bool} {bs : List Byte} {reg : BitVec 3}
    {dst : Dst w} {imm : Byte} (h : readOperands regNo x b bs = some (reg, dst, imm)) :
    dst.length + 2 = tailLength bs := by
  cases bs with
  | nil => cases h
  | cons modrm bs =>
    rw [tailLength_cons]
    simp only [readOperands, takeDst] at h
    split at h
    · rename_i dst' imm' tl heq
      cases h
      split at heq
      · rename_i hm; cases heq; rw [if_pos hm]; rfl
      · rename_i hm
        rw [if_neg hm]
        obtain ⟨a, ht, ha⟩ := Option.map_eq_some_iff.1 heq
        obtain ⟨m, r⟩ := a
        cases ha
        rw [← length_of_takeMem ht]; simp [Dst.length, Nat.add_comm]
    · cases h

/-- Where no operand uses the extension bits, their values do not matter (log 14). -/
theorem takeMem_ignores {x x' b b' : Bool} {mod : BitVec 2} {rm : BitVec 3} {bs : List Byte}
    (hx : x = x' ∨ rm ≠ 0b100#3)
    (hb : b = b' ∨ (mod = 0b00#2 ∧ (rm = 0b101#3 ∨ (rm = 0b100#3 ∧ (bs.getD 0 0).extractLsb' 0 3 = 0b101#3)))) :
    takeMem x b mod rm bs = takeMem x' b' mod rm bs := by
  rcases hx with rfl | hx <;> rcases hb with rfl | ⟨rfl, rfl | ⟨rfl, hb⟩⟩
  · rfl
  · simp [takeMem]
  · cases bs with
    | nil => rfl
    | cons s bs => rw [List.getD_cons_zero] at hb; simp [takeMem, hb]
  · simp [takeMem, hx]
  · simp [takeMem]
  · exact absurd rfl hx

/-- In a window of `n` bytes the operands are read exactly when all their bytes are in it. -/
theorem isSome_readOperands_take {w : Nat} (regNo : BitVec 3 → BitVec w) (x b : Bool) (bs : List Byte) (n : Nat) :
    (readOperands regNo x b (bs.take n)).isSome = decide (tailLength bs ≤ min n bs.length) := by
  rw [isSome_readOperands, List.length_take]
  have h2 := two_le_tailLength bs
  have h2' := two_le_tailLength (bs.take n)
  match bs, n with
  | [], _ => simp
  | [_], _ => rw [decide_eq_decide]; simp at *; omega
  | _ :: _ :: _, 0 => rw [decide_eq_decide]; simp at *; omega
  | _ :: _ :: _, 1 => rw [decide_eq_decide]; simp at *; omega
  | _ :: _ :: _, n + 2 => rfl

end Sys2Proof
end

