-- ==== Sys2Proof/Laws/State.lean ====
section
/-! SUPPORT. For every update of State, what each field is after it: one lemma per field per update, true by rfl, so that
no proof unfolds a record update. -/

namespace Sys2Proof.Machine

variable (s : State)

/-! ## writeZmm -/

@[simp] theorem writeZmm_zmm (i : BitVec 5) (v : Zmm) : (writeZmm s i v).zmm = s.zmm.set i.toNat v i.isLt := rfl
@[simp] theorem writeZmm_k (i : BitVec 5) (v : Zmm) : (writeZmm s i v).k = s.k := rfl
@[simp] theorem writeZmm_gpr (i : BitVec 5) (v : Zmm) : (writeZmm s i v).gpr = s.gpr := rfl
@[simp] theorem writeZmm_rip (i : BitVec 5) (v : Zmm) : (writeZmm s i v).rip = s.rip := rfl
@[simp] theorem writeZmm_fsBase (i : BitVec 5) (v : Zmm) : (writeZmm s i v).fsBase = s.fsBase := rfl
@[simp] theorem writeZmm_gsBase (i : BitVec 5) (v : Zmm) : (writeZmm s i v).gsBase = s.gsBase := rfl
@[simp] theorem writeZmm_rflags (i : BitVec 5) (v : Zmm) : (writeZmm s i v).rflags = s.rflags := rfl
@[simp] theorem writeZmm_mxcsr (i : BitVec 5) (v : Zmm) : (writeZmm s i v).mxcsr = s.mxcsr := rfl
@[simp] theorem writeZmm_cr0 (i : BitVec 5) (v : Zmm) : (writeZmm s i v).cr0 = s.cr0 := rfl
@[simp] theorem writeZmm_cr2 (i : BitVec 5) (v : Zmm) : (writeZmm s i v).cr2 = s.cr2 := rfl
@[simp] theorem writeZmm_cr4 (i : BitVec 5) (v : Zmm) : (writeZmm s i v).cr4 = s.cr4 := rfl
@[simp] theorem writeZmm_xcr0 (i : BitVec 5) (v : Zmm) : (writeZmm s i v).xcr0 = s.xcr0 := rfl
@[simp] theorem writeZmm_mode (i : BitVec 5) (v : Zmm) : (writeZmm s i v).mode = s.mode := rfl
@[simp] theorem writeZmm_cpl (i : BitVec 5) (v : Zmm) : (writeZmm s i v).cpl = s.cpl := rfl
@[simp] theorem writeZmm_features (i : BitVec 5) (v : Zmm) : (writeZmm s i v).features = s.features := rfl
@[simp] theorem writeZmm_vaBits (i : BitVec 5) (v : Zmm) : (writeZmm s i v).vaBits = s.vaBits := rfl
@[simp] theorem writeZmm_access (i : BitVec 5) (v : Zmm) : (writeZmm s i v).access = s.access := rfl
@[simp] theorem writeZmm_mem (i : BitVec 5) (v : Zmm) : (writeZmm s i v).mem = s.mem := rfl
@[simp] theorem writeZmm_stored (i : BitVec 5) (v : Zmm) : (writeZmm s i v).stored = s.stored := rfl
@[simp] theorem writeZmm_fault (i : BitVec 5) (v : Zmm) : (writeZmm s i v).fault = s.fault := rfl

/-! ## advance -/

@[simp] theorem advance_zmm (n : Nat) : (advance n s).zmm = s.zmm := rfl
@[simp] theorem advance_k (n : Nat) : (advance n s).k = s.k := rfl
@[simp] theorem advance_gpr (n : Nat) : (advance n s).gpr = s.gpr := rfl
@[simp] theorem advance_rip (n : Nat) : (advance n s).rip = s.rip + BitVec.ofNat 64 n := rfl
@[simp] theorem advance_fsBase (n : Nat) : (advance n s).fsBase = s.fsBase := rfl
@[simp] theorem advance_gsBase (n : Nat) : (advance n s).gsBase = s.gsBase := rfl
@[simp] theorem advance_rflags (n : Nat) : (advance n s).rflags = s.rflags := rfl
@[simp] theorem advance_mxcsr (n : Nat) : (advance n s).mxcsr = s.mxcsr := rfl
@[simp] theorem advance_cr0 (n : Nat) : (advance n s).cr0 = s.cr0 := rfl
@[simp] theorem advance_cr2 (n : Nat) : (advance n s).cr2 = s.cr2 := rfl
@[simp] theorem advance_cr4 (n : Nat) : (advance n s).cr4 = s.cr4 := rfl
@[simp] theorem advance_xcr0 (n : Nat) : (advance n s).xcr0 = s.xcr0 := rfl
@[simp] theorem advance_mode (n : Nat) : (advance n s).mode = s.mode := rfl
@[simp] theorem advance_cpl (n : Nat) : (advance n s).cpl = s.cpl := rfl
@[simp] theorem advance_features (n : Nat) : (advance n s).features = s.features := rfl
@[simp] theorem advance_vaBits (n : Nat) : (advance n s).vaBits = s.vaBits := rfl
@[simp] theorem advance_access (n : Nat) : (advance n s).access = s.access := rfl
@[simp] theorem advance_mem (n : Nat) : (advance n s).mem = s.mem := rfl
@[simp] theorem advance_stored (n : Nat) : (advance n s).stored = s.stored := rfl
@[simp] theorem advance_fault (n : Nat) : (advance n s).fault = s.fault := rfl

/-! ## store -/

@[simp] theorem store_zmm (ws : List Host.Cell) : (store s ws).zmm = s.zmm := rfl
@[simp] theorem store_k (ws : List Host.Cell) : (store s ws).k = s.k := rfl
@[simp] theorem store_gpr (ws : List Host.Cell) : (store s ws).gpr = s.gpr := rfl
@[simp] theorem store_rip (ws : List Host.Cell) : (store s ws).rip = s.rip := rfl
@[simp] theorem store_fsBase (ws : List Host.Cell) : (store s ws).fsBase = s.fsBase := rfl
@[simp] theorem store_gsBase (ws : List Host.Cell) : (store s ws).gsBase = s.gsBase := rfl
@[simp] theorem store_rflags (ws : List Host.Cell) : (store s ws).rflags = s.rflags := rfl
@[simp] theorem store_mxcsr (ws : List Host.Cell) : (store s ws).mxcsr = s.mxcsr := rfl
@[simp] theorem store_cr0 (ws : List Host.Cell) : (store s ws).cr0 = s.cr0 := rfl
@[simp] theorem store_cr2 (ws : List Host.Cell) : (store s ws).cr2 = s.cr2 := rfl
@[simp] theorem store_cr4 (ws : List Host.Cell) : (store s ws).cr4 = s.cr4 := rfl
@[simp] theorem store_xcr0 (ws : List Host.Cell) : (store s ws).xcr0 = s.xcr0 := rfl
@[simp] theorem store_mode (ws : List Host.Cell) : (store s ws).mode = s.mode := rfl
@[simp] theorem store_cpl (ws : List Host.Cell) : (store s ws).cpl = s.cpl := rfl
@[simp] theorem store_features (ws : List Host.Cell) : (store s ws).features = s.features := rfl
@[simp] theorem store_vaBits (ws : List Host.Cell) : (store s ws).vaBits = s.vaBits := rfl
@[simp] theorem store_access (ws : List Host.Cell) : (store s ws).access = s.access := rfl
@[simp] theorem store_mem (ws : List Host.Cell) : (store s ws).mem = ws.foldl (fun m c => Memory.write m c.1 c.2) s.mem := rfl
@[simp] theorem store_stored (ws : List Host.Cell) : (store s ws).stored = ws.foldl (fun as c => addAddr as c.1) s.stored := rfl
@[simp] theorem store_fault (ws : List Host.Cell) : (store s ws).fault = s.fault := rfl

/-! ## recordFault -/

@[simp] theorem recordFault_zmm (r : FaultRecord) : (recordFault r s).zmm = s.zmm := rfl
@[simp] theorem recordFault_k (r : FaultRecord) : (recordFault r s).k = s.k := rfl
@[simp] theorem recordFault_gpr (r : FaultRecord) : (recordFault r s).gpr = s.gpr := rfl
@[simp] theorem recordFault_rip (r : FaultRecord) : (recordFault r s).rip = s.rip := rfl
@[simp] theorem recordFault_fsBase (r : FaultRecord) : (recordFault r s).fsBase = s.fsBase := rfl
@[simp] theorem recordFault_gsBase (r : FaultRecord) : (recordFault r s).gsBase = s.gsBase := rfl
@[simp] theorem recordFault_rflags (r : FaultRecord) : (recordFault r s).rflags = s.rflags := rfl
@[simp] theorem recordFault_mxcsr (r : FaultRecord) : (recordFault r s).mxcsr = s.mxcsr := rfl
@[simp] theorem recordFault_cr0 (r : FaultRecord) : (recordFault r s).cr0 = s.cr0 := rfl
theorem recordFault_cr2 (r : FaultRecord) : (recordFault r s).cr2 =
    (match r.kind, r.addr with
      | .pageFault, some a => a
      | _, _ => s.cr2) := rfl
@[simp] theorem recordFault_cr4 (r : FaultRecord) : (recordFault r s).cr4 = s.cr4 := rfl
@[simp] theorem recordFault_xcr0 (r : FaultRecord) : (recordFault r s).xcr0 = s.xcr0 := rfl
@[simp] theorem recordFault_mode (r : FaultRecord) : (recordFault r s).mode = s.mode := rfl
@[simp] theorem recordFault_cpl (r : FaultRecord) : (recordFault r s).cpl = s.cpl := rfl
@[simp] theorem recordFault_features (r : FaultRecord) : (recordFault r s).features = s.features := rfl
@[simp] theorem recordFault_vaBits (r : FaultRecord) : (recordFault r s).vaBits = s.vaBits := rfl
@[simp] theorem recordFault_access (r : FaultRecord) : (recordFault r s).access = s.access := rfl
@[simp] theorem recordFault_mem (r : FaultRecord) : (recordFault r s).mem = s.mem := rfl
@[simp] theorem recordFault_stored (r : FaultRecord) : (recordFault r s).stored = s.stored := rfl
@[simp] theorem recordFault_fault (r : FaultRecord) : (recordFault r s).fault = some r := rfl

end Sys2Proof.Machine
end

