-- ==== Sys2Proof/Laws/Memory.lean ====
section
/-! SUPPORT. Registers and memory: a read after a write gives the value written, a write leaves every other place
alone, and every operation keeps the canonical form. -/

namespace Sys2Proof.Machine

/-! ## Vector registers -/

@[simp] theorem readZmm_writeZmm_same (s : State) (i : BitVec 5) (v : Zmm) : readZmm (writeZmm s i v) i = v := by
  simp [readZmm]

theorem readZmm_writeZmm_ne (s : State) {i j : BitVec 5} (v : Zmm) (h : j ≠ i) :
    readZmm (writeZmm s i v) j = readZmm s j := by
  have hne : i.toNat ≠ j.toNat := fun e => h (BitVec.eq_of_toNat_eq e.symm)
  simp [readZmm, hne]

@[simp] theorem readZmm_advance (s : State) (n : Nat) (i : BitVec 5) : readZmm (advance n s) i = readZmm s i := rfl

@[simp] theorem readZmm_store (s : State) (ws : List Host.Cell) (i : BitVec 5) : readZmm (store s ws) i = readZmm s i :=
  rfl

/-! ## One byte -/

theorem Memory.read_write_same (m : Memory) (a : Nat) (b : Byte) : Memory.read (Memory.write m a b) a = some b := by
  induction m with
  | nil => simp [Memory.write, Memory.read]
  | cons c m ih =>
    obtain ⟨x, c⟩ := c
    simp only [Memory.write]
    split
    · simp [Memory.read]
    · split
      · simp [Memory.read]
      · rename_i h; simp [Memory.read, Ne.symm h, ih]

theorem Memory.read_write_ne (m : Memory) {a x : Nat} (b : Byte) (h : x ≠ a) :
    Memory.read (Memory.write m a b) x = Memory.read m x := by
  induction m with
  | nil => simp [Memory.write, Memory.read, h.symm]
  | cons c m ih =>
    obtain ⟨y, c⟩ := c
    simp only [Memory.write]
    split
    · simp [Memory.read, h.symm]
    · split
      · rename_i e; subst e; simp [Memory.read, h.symm]
      · simp only [Memory.read, ih]

theorem mem_addAddr {as : List Nat} {a x : Nat} : x ∈ addAddr as a ↔ x = a ∨ x ∈ as := by
  induction as with
  | nil => simp [addAddr]
  | cons y as ih =>
    simp only [addAddr]
    split
    · simp
    · split
      · rename_i e; subst e; simp
      · simp only [List.mem_cons, ih]; tauto

/-! ## Canonical form -/

theorem risingFrom_addAddr (as : List Nat) (a : Nat) (lo : Option Nat) (hlo : ∀ l ∈ lo, l < a)
    (h : risingFrom lo as = true) : risingFrom lo (addAddr as a) = true := by
  induction as generalizing lo with
  | nil => cases lo <;> simp_all [addAddr, risingFrom]
  | cons x as ih =>
    simp only [risingFrom, Bool.and_eq_true] at h
    simp only [addAddr]
    split
    · rename_i hax
      cases lo <;> simp_all [risingFrom]
    · split
      · rename_i e; subst e; simp [risingFrom, h]
      · rename_i h1 h2
        simp only [risingFrom, Bool.and_eq_true]
        exact ⟨h.1, ih (some x) (by intro l hl; cases hl; omega) h.2⟩

theorem addrsWf_addAddr {as : List Nat} {a : Nat} (ha : a < 2 ^ 64) (h : addrsWf as = true) :
    addrsWf (addAddr as a) = true := by
  simp only [addrsWf, Bool.and_eq_true, List.all_eq_true, decide_eq_true_eq] at *
  refine ⟨risingFrom_addAddr as a none (by simp) h.1, fun x hx => ?_⟩
  rcases mem_addAddr.1 hx with rfl | hx
  · exact ha
  · exact h.2 x hx

/-- Writing a byte changes the addresses of memory as adding the address does. -/
theorem Memory.map_fst_write (m : Memory) (a : Nat) (b : Byte) :
    (Memory.write m a b).map Prod.fst = addAddr (m.map Prod.fst) a := by
  induction m with
  | nil => rfl
  | cons c m ih =>
    obtain ⟨x, c⟩ := c
    simp only [Memory.write, List.map_cons, addAddr]
    split
    · rfl
    · split
      · rename_i e; simp [e]
      · simp [ih]

theorem Memory.wf_write {m : Memory} {a : Nat} (b : Byte) (ha : a < 2 ^ 64) (h : Memory.wf m = true) :
    Memory.wf (Memory.write m a b) = true := by
  simp only [Memory.wf, Memory.map_fst_write]
  exact addrsWf_addAddr ha h

/-! ## Byte writes -/

/-- Reading `a` after byte writes: what the writes leave there, each write of another address passed over. -/
theorem read_foldl_write_ne (ws : List Host.Cell) (m : Memory) (a : Nat) (h : ∀ c ∈ ws, c.1 ≠ a) :
    Memory.read (ws.foldl (fun m c => Memory.write m c.1 c.2) m) a = Memory.read m a := by
  induction ws generalizing m with
  | nil => rfl
  | cons c ws ih =>
    simp only [List.foldl_cons]
    rw [ih _ fun d hd => h d (List.mem_cons_of_mem _ hd)]
    exact Memory.read_write_ne m c.2 (h c List.mem_cons_self).symm

/-- If all writes to `a` write `b` and there is one, `a` holds `b` afterwards. -/
theorem read_foldl_write_eq (ws : List Host.Cell) (m : Memory) (a : Nat) (b : Byte)
    (hex : (a, b) ∈ ws) (hall : ∀ c ∈ ws, c.1 = a → c.2 = b) :
    Memory.read (ws.foldl (fun m c => Memory.write m c.1 c.2) m) a = some b := by
  induction ws generalizing m with
  | nil => cases hex
  | cons c ws ih =>
    simp only [List.foldl_cons]
    by_cases hin : ∃ d ∈ ws, d.1 = a
    · obtain ⟨d, hd, hda⟩ := hin
      have hdb : d.2 = b := hall d (List.mem_cons_of_mem _ hd) hda
      exact ih _ (by rw [← hda, ← hdb]; exact hd) fun e he => hall e (List.mem_cons_of_mem _ he)
    · have hc : c = (a, b) := by
        rcases List.mem_cons.1 hex with h | h
        · exact h.symm
        · exact absurd ⟨_, h, rfl⟩ hin
      rw [read_foldl_write_ne ws _ a fun d hd hda => hin ⟨d, hd, hda⟩, hc]
      exact Memory.read_write_same m a b

theorem mem_foldl_addAddr {ws : List Host.Cell} {as : List Nat} {x : Nat} :
    x ∈ ws.foldl (fun as c => addAddr as c.1) as ↔ (∃ c ∈ ws, c.1 = x) ∨ x ∈ as := by
  induction ws generalizing as with
  | nil => simp
  | cons c ws ih =>
    simp only [List.foldl_cons, ih, mem_addAddr, List.mem_cons, exists_eq_or_imp]
    constructor
    · rintro (h | h | h)
      · exact .inl (.inr h)
      · exact .inl (.inl h.symm)
      · exact .inr h
    · rintro ((h | h) | h)
      · exact .inr (.inl h.symm)
      · exact .inl h
      · exact .inr (.inr h)

theorem isSome_read_write (m : Memory) (a x : Nat) (b : Byte) (h : (Memory.read m x).isSome = true) :
    (Memory.read (Memory.write m a b) x).isSome = true := by
  by_cases e : x = a
  · subst e; simp [Memory.read_write_same]
  · rw [Memory.read_write_ne m b e]; exact h

/-- Storing keeps the canonical form, when the addresses written are linear addresses. -/
theorem wf_store {s : State} {ws : List Host.Cell} (hws : ∀ c ∈ ws, c.1 < 2 ^ 64) (h : s.wf = true) :
    (store s ws).wf = true := by
  induction ws generalizing s with
  | nil => exact h
  | cons c ws ih =>
    have hstep : (store s [c]).wf = true := by
      have hc := hws c List.mem_cons_self
      simp only [State.wf, Bool.and_eq_true, List.all_eq_true, store_mem, store_stored, List.foldl_cons,
        List.foldl_nil] at h ⊢
      refine ⟨⟨Memory.wf_write c.2 hc h.1.1, addrsWf_addAddr hc h.1.2⟩, fun x hx => ?_⟩
      rcases mem_addAddr.1 hx with rfl | hx
      · simp [Memory.read_write_same]
      · exact isSome_read_write _ _ _ _ (h.2 x hx)
    have := ih (fun d hd => hws d (List.mem_cons_of_mem _ hd)) hstep
    exact this

/-- Placing program bytes keeps the canonical form of memory. -/
theorem memory_wf_placeBytes (bs : List Byte) (s : State) (a : Word) (h : Memory.wf s.mem = true) :
    Memory.wf (placeBytes s a bs).mem = true := by
  induction bs generalizing s a with
  | nil => exact h
  | cons b bs ih => exact ih _ _ (Memory.wf_write b a.isLt h)

end Sys2Proof.Machine
end

