-- ==== Sys2Proof/Laws/Operands.lean ====
section
/-! SUPPORT. Operands: the bits of a masked register result, the byte writes of a masked store, the checks before the
operands, and the one lemma per destination write that says everything it can do. -/

namespace Sys2Proof.Machine

/-! ## Masked register results (40_vextractf.md R403) -/

theorem getLsbD_selectedBits {E : Nat} (sel : Nat → Bool) (n b : Nat) (hE : 0 < E) (hn : n * E ≤ 512) :
    (selectedBits E sel n).getLsbD b = (decide (b < n * E) && sel (b / E)) := by
  induction n with
  | zero => simp [selectedBits]
  | succ n ih =>
    have hle : n * E + E ≤ 512 := by rw [← Nat.succ_mul]; exact hn
    rw [selectedBits, BitVec.getLsbD_or, ih (by omega), Nat.succ_mul]
    by_cases h1 : b < n * E
    · have h2 : b < n * E + E := by omega
      cases hs : sel n <;> simp [h1, h2]
    · by_cases h2 : b < n * E + E
      · have hq : b / E = n := by
          rw [Nat.div_eq_iff hE]
          omega
        have h5 : b < 512 := by omega
        have h6 : b - n * E < E := by omega
        cases hs : sel n <;> simp [h1, h2, hq, hs, h5, h6]
      · have h6 : ¬ b - n * E < E := by omega
        cases hs : sel n <;> simp [h1, h2, h6]

/-- Every bit of `MaskedRegResult`: below `W`, the lane's bit in a selected element, else the old bit or 0; 0 from `W`
up. -/
theorem getLsbD_maskedRegResult {W : Nat} (old : Zmm) (tmp : BitVec W) (E : Nat) (sel : Nat → Bool) (z : Bool) (b : Nat)
    (hE : 0 < E) (hdvd : W / E * E = W) (hW : W ≤ 512) :
    (maskedRegResult old tmp E sel z).getLsbD b =
      (decide (b < W) && (if sel (b / E) then tmp.getLsbD b else !z && old.getLsbD b)) := by
  have hpick := getLsbD_selectedBits sel (W / E) b hE (by omega)
  rw [hdvd] at hpick
  simp only [maskedRegResult, BitVec.getLsbD_and, BitVec.getLsbD_or, BitVec.getLsbD_setWidth, BitVec.getLsbD_allOnes,
    hpick]
  by_cases hb : b < W
  · have h5 : b < 512 := by omega
    cases z
    · rw [if_neg Bool.false_ne_true, BitVec.getLsbD_and, BitVec.getLsbD_not, hpick]
      cases sel (b / E) <;> simp [hb, h5]
    · rw [if_pos rfl, BitVec.getLsbD_zero]
      cases sel (b / E) <;> simp [hb, h5]
  · simp only [hb, decide_false, Bool.and_false, Bool.false_and]

/-! ## Byte writes (20_memory.md R201, 40_vextractf.md R404) -/

theorem mem_byteWrites {w : Nat} {a : Word} {n : Nat} {v : BitVec w} {c : Host.Cell} :
    c ∈ byteWrites a n v ↔ ∃ i < n, c = ((a + BitVec.ofNat 64 i).toNat, v.extractLsb' (8 * i) 8) := by
  simp [byteWrites, eq_comm]

/-- The writes of a masked store: for each byte of a selected element, the lane's byte at the same offset. -/
theorem mem_maskedWrites {W : Nat} {la : Word} {lane : BitVec W} {E : Nat} {sel : Nat → Bool} {c : Host.Cell}
    (hE : 8 ∣ E) (hE0 : 0 < E) :
    c ∈ maskedWrites la lane E sel ↔
      ∃ i < W / E * (E / 8), sel (i / (E / 8)) = true ∧
        c = ((la + BitVec.ofNat 64 i).toNat, lane.extractLsb' (8 * i) 8) := by
  obtain ⟨q, rfl⟩ := hE
  have hq : 0 < q := by omega
  have hdiv : 8 * q / 8 = q := by omega
  simp only [maskedWrites, List.mem_flatMap, List.mem_range, hdiv]
  have key : ∀ j i, i < q →
      (((la + BitVec.ofNat 64 (j * q)) + BitVec.ofNat 64 i).toNat,
        (lane.extractLsb' (j * (8 * q)) (8 * q)).extractLsb' (8 * i) 8) =
      ((la + BitVec.ofNat 64 (j * q + i)).toNat, lane.extractLsb' (8 * (j * q + i)) 8) := by
    intro j i hi
    have h1 : la + BitVec.ofNat 64 (j * q) + BitVec.ofNat 64 i = la + BitVec.ofNat 64 (j * q + i) := by
      rw [BitVec.add_assoc, ← BitVec.ofNat_add]
    have h2 : (lane.extractLsb' (j * (8 * q)) (8 * q)).extractLsb' (8 * i) 8 =
        lane.extractLsb' (8 * (j * q + i)) 8 := by
      apply BitVec.eq_of_getLsbD_eq
      intro b hb
      have h3 : 8 * i + b < 8 * q := by omega
      have h4 : j * (8 * q) + (8 * i + b) = 8 * (j * q + i) + b := by ring
      simp [hb, h3, h4]
    rw [h1, h2]
  constructor
  · rintro ⟨j, hj, hc⟩
    split at hc
    · rename_i hs
      obtain ⟨i, hi, rfl⟩ := mem_byteWrites.1 hc
      refine ⟨j * q + i, ?_, ?_, key j i hi⟩
      · calc j * q + i < j * q + q := by omega
          _ = (j + 1) * q := by ring
          _ ≤ _ := Nat.mul_le_mul_right q hj
      · rwa [Nat.mul_comm j q, Nat.mul_add_div hq, Nat.div_eq_of_lt hi, Nat.add_zero]
    · cases hc
  · rintro ⟨i, hi, hs, rfl⟩
    refine ⟨i / q, Nat.div_lt_of_lt_mul (by rwa [Nat.mul_comm] at hi), ?_⟩
    have hm := Nat.mod_lt i hq
    simp only [hs, ↓reduceIte]
    refine mem_byteWrites.2 ⟨i % q, hm, ?_⟩
    rw [key (i / q) (i % q) hm, Nat.div_add_mod']

theorem byteWrites_addr_lt {w : Nat} {a : Word} {n : Nat} {v : BitVec w} : ∀ c ∈ byteWrites a n v, c.1 < 2 ^ 64 := by
  intro c hc
  obtain ⟨i, -, rfl⟩ := mem_byteWrites.1 hc
  exact BitVec.isLt _

theorem maskedWrites_addr_lt {W : Nat} {la : Word} {lane : BitVec W} {E : Nat} {sel : Nat → Bool} :
    ∀ c ∈ maskedWrites la lane E sel, c.1 < 2 ^ 64 := by
  intro c hc
  simp only [maskedWrites, List.mem_flatMap, List.mem_range] at hc
  obtain ⟨j, -, hc⟩ := hc
  split at hc
  · exact byteWrites_addr_lt c hc
  · cases hc

/-- Addresses `la + i` and `la + j` of one operand differ. -/
theorem operand_addr_inj {la : Word} {i j : Nat} (hi : i < 2 ^ 64) (hj : j < 2 ^ 64)
    (h : (la + BitVec.ofNat 64 i).toNat = (la + BitVec.ofNat 64 j).toNat) : i = j := by
  have h1 := BitVec.eq_of_toNat_eq h
  have h2 : BitVec.ofNat 64 i = BitVec.ofNat 64 j := by
    have := congrArg (fun x => x - la) h1
    simpa [BitVec.add_comm la] using this
  have h3 := congrArg BitVec.toNat h2
  rwa [BitVec.toNat_ofNat, BitVec.toNat_ofNat, Nat.mod_eq_of_lt hi, Nat.mod_eq_of_lt hj] at h3

/-! ## Checks and destinations -/

/-- When the checks let an instruction through, it is as if they were not there. -/
theorem checked_next {n : Needs} {s t : State} {go : Result} (h : checked n s go = .next t) :
    mode32 s = false ∧ n.len ≤ Config.maxInsnLen ∧ n.legal = true ∧ n.features = true ∧ stateEnabled n.evex s = true ∧
      taskSwitched s = false ∧ placed n.len s = true ∧ go = .next t := by
  unfold checked at h
  split at h; · cases h
  split at h; · cases h
  split at h; · cases h
  split at h; · cases h
  split at h; · cases h
  split at h; · cases h
  split at h; · cases h
  simp_all

/-- The checks pass when every condition holds. -/
theorem checked_eq {n : Needs} {s : State} {go : Result} (h1 : mode32 s = false) (h2 : n.len ≤ Config.maxInsnLen)
    (h3 : n.legal = true) (h4 : n.features = true) (h5 : stateEnabled n.evex s = true) (h6 : taskSwitched s = false)
    (h7 : placed n.len s = true) : checked n s go = go := by
  simp [checked, Nat.not_lt.2 h2, *]

/-- What a store can do: fault with nothing written, or write and advance `rip`. -/
theorem storeTo_cases (s : State) (ss : Bool) (la : Word) (n : Nat) (ws : List Host.Cell) (len : Nat) :
    (operandCanonical s la n = false ∧ storeTo s ss la n ws len = raise (if ss then ss0 else gp0)) ∨
    (operandCanonical s la n = true ∧ ∃ c a, accessAnswer s la n = .pageFault c a ∧
      storeTo s ss la n ws len = raise (pf c a)) ∨
    (operandCanonical s la n = true ∧ accessAnswer s la n = .ok ∧
      storeTo s ss la n ws len = .next (advance len (store s ws))) := by
  unfold storeTo
  cases hc : operandCanonical s la n
  · simp
  · cases ha : accessAnswer s la n <;> simp

theorem storeTo_next {s t : State} {ss : Bool} {la : Word} {n : Nat} {ws : List Host.Cell} {len : Nat}
    (h : storeTo s ss la n ws len = .next t) :
    operandCanonical s la n = true ∧ accessAnswer s la n = .ok ∧ t = advance len (store s ws) := by
  rcases storeTo_cases s ss la n ws len with ⟨-, h'⟩ | ⟨-, c, a, -, h'⟩ | ⟨hc, ha, h'⟩
  · rw [h'] at h; cases h
  · rw [h'] at h; cases h
  · rw [h'] at h; cases h; exact ⟨hc, ha, rfl⟩

theorem storeTo_eq {s : State} {ss : Bool} {la : Word} {n : Nat} {ws : List Host.Cell} {len : Nat}
    (hc : operandCanonical s la n = true) (ha : accessAnswer s la n = .ok) :
    storeTo s ss la n ws len = .next (advance len (store s ws)) := by
  simp [storeTo, hc, ha]

/-- Everything the checks can answer: a refusal or fault of their own, or what follows them. -/
theorem checked_cases (n : Needs) (s : State) (go : Result) :
    (checked n s go = .refused .modeOutOfScope ∧ mode32 s = true) ∨
    (checked n s go = raise gp0 ∧ Config.maxInsnLen < n.len) ∨ checked n s go = raise ud ∨ checked n s go = raise nm ∨
    (checked n s go = .refused .placement ∧ placed n.len s = false) ∨ checked n s go = go := by
  unfold checked
  split; · simp_all
  split; · right; left; exact ⟨rfl, by assumption⟩
  split; · simp_all
  split; · simp_all
  split; · simp_all
  split; · simp_all
  split
  · right; right; right; right; left; simp_all
  · simp_all

/-- A refusal of Access has its write bit set and reports a byte of the operand (log 17). -/
theorem accessAnswer_pageFault {s : State} {la : Word} {n : Nat} {code : BitVec 32} {a : Word}
    (h : accessAnswer s la n = .pageFault code a) (hn : 0 < n) :
    code.getLsbD 1 = true ∧ ∃ b < n, a = la + BitVec.ofNat 64 b := by
  unfold accessAnswer at h
  split at h
  · cases h
  · rename_i r hr
    cases h
    refine ⟨by simp, ?_⟩
    split
    · rename_i a _
      split
      · rename_i hlt
        exact ⟨(a - la).toNat, hlt, by
          rw [BitVec.ofNat_toNat, BitVec.setWidth_eq, BitVec.add_comm, BitVec.sub_add_cancel]⟩
      · exact ⟨0, hn, by simp⟩
    · exact ⟨0, hn, by simp⟩

/-- Memory after a masked store, byte by byte (40_vextractf.md R404). -/
theorem read_store_maskedWrites (s : State) {W E : Nat} (tmp : BitVec W) (la : Word) (sel : Nat → Bool)
    (hW : W = 128 ∨ W = 256) (hE : E = 32 ∨ E = 64) :
    (∀ b < W / 8, Memory.read (store s (maskedWrites la tmp E sel)).mem (la + BitVec.ofNat 64 b).toNat =
      if sel (8 * b / E) then some (tmp.extractLsb' (8 * b) 8) else Memory.read s.mem (la + BitVec.ofNat 64 b).toNat) ∧
    (∀ a, outside la (W / 8) a → Memory.read (store s (maskedWrites la tmp E sel)).mem a = Memory.read s.mem a) := by
  have hE0 : 0 < E := by omega
  have h8 : 8 ∣ E := by rcases hE with rfl | rfl <;> decide
  have hn : W / E * (E / 8) = W / 8 := by rcases hW with rfl | rfl <;> rcases hE with rfl | rfl <;> decide
  have hidx : ∀ b, b / (E / 8) = 8 * b / E := by rcases hE with rfl | rfl <;> intro b <;> omega
  constructor
  · intro b hb
    split
    · rename_i hs
      apply read_foldl_write_eq
      · exact (mem_maskedWrites h8 hE0).2 ⟨b, by omega, by rw [hidx]; exact hs, rfl⟩
      · intro c hc hca
        obtain ⟨i, hi, -, rfl⟩ := (mem_maskedWrites h8 hE0).1 hc
        have := operand_addr_inj (i := i) (j := b) (by omega) (by omega) hca
        rw [this]
    · rename_i hs
      apply read_foldl_write_ne
      intro c hc hca
      obtain ⟨i, hi, hsi, rfl⟩ := (mem_maskedWrites h8 hE0).1 hc
      have := operand_addr_inj (i := i) (j := b) (by omega) (by omega) hca
      rw [this, hidx] at hsi; exact hs hsi
  · intro a ha
    apply read_foldl_write_ne
    intro c hc hca
    obtain ⟨i, hi, hsi, rfl⟩ := (mem_maskedWrites h8 hE0).1 hc
    exact ha i (by omega) hca.symm

/-- The note of stored addresses after a masked store: each byte of a selected element, and what was there (20_memory.md
R243). -/
theorem mem_stored_store_maskedWrites (s : State) {W E : Nat} (tmp : BitVec W) (la : Word) (sel : Nat → Bool)
    (hW : W = 128 ∨ W = 256) (hE : E = 32 ∨ E = 64) (a : Nat) :
    a ∈ (store s (maskedWrites la tmp E sel)).stored ↔
      a ∈ s.stored ∨ ∃ b < W / 8, sel (8 * b / E) = true ∧ a = (la + BitVec.ofNat 64 b).toNat := by
  have h8 : 8 ∣ E := by rcases hE with rfl | rfl <;> decide
  have hn : W / E * (E / 8) = W / 8 := by rcases hW with rfl | rfl <;> rcases hE with rfl | rfl <;> decide
  have hidx : ∀ b, b / (E / 8) = 8 * b / E := by rcases hE with rfl | rfl <;> intro b <;> omega
  rw [store_stored, mem_foldl_addAddr, or_comm]
  refine or_congr_right ⟨?_, ?_⟩
  · rintro ⟨c, hc, rfl⟩
    obtain ⟨b, hb, hs, rfl⟩ := (mem_maskedWrites h8 (by omega)).1 hc
    exact ⟨b, hn ▸ hb, hidx b ▸ hs, rfl⟩
  · rintro ⟨b, hb, hs, rfl⟩
    exact ⟨_, (mem_maskedWrites h8 (by omega)).2 ⟨b, hn.symm ▸ hb, (hidx b).symm ▸ hs, rfl⟩, rfl⟩

end Sys2Proof.Machine
end

