-- ==== Sys2Proof/Laws/Exec.lean ====
section
/-! SUPPORT. The seven meanings as one: the checks, and then the masked register write or the masked store, in the words
of Safety. A proof about all encodings cites these and unfolds no meaning. -/

namespace Sys2Proof.Machine

/-- What the checks need of an instruction. -/
def needs (i : Instr) (s : State) : Needs :=
  { len := i.length, legal := i.maskLegal, features := i.flagsSet s.features, evex := i.evex }

theorem imm_bit (imm : Byte) : (imm.extractLsb' 0 1).toNat = imm.toNat % 2 := by
  simp [BitVec.extractLsb'_toNat]

theorem imm_bits (imm : Byte) : (imm.extractLsb' 0 2).toNat = imm.toNat % 4 := by
  simp [BitVec.extractLsb'_toNat]

/-- Reading a lane through the YMM view is reading it of the whole register (10_state.md R101; 40_vextractf.md R401). -/
theorem select128_readYmm (s : State) (r : BitVec 5) (imm : Byte) :
    select128 (readYmm s r) imm = (readZmm s r).extractLsb' (128 * (imm.toNat % 2)) 128 := by
  apply BitVec.eq_of_getLsbD_eq
  intro b hb
  have : 128 * (imm.toNat % 2) + b < 256 := by omega
  simp [select128, laneIndex, readYmm, hb, this]

theorem select128_readZmm (s : State) (r : BitVec 5) (imm : Byte) :
    select128 (readZmm s r) imm = (readZmm s r).extractLsb' (128 * (imm.toNat % 4)) 128 := by
  simp [select128, laneIndex]

theorem select256_readZmm (s : State) (r : BitVec 5) (imm : Byte) :
    select256 (readZmm s r) imm = (readZmm s r).extractLsb' (256 * (imm.toNat % 2)) 256 := by
  simp [select256]

/-- With no writemask the masked result is the lane, zero-extended (40_vextractf.md R410). -/
theorem maskedRegResult_all {W : Nat} (old : Zmm) (tmp : BitVec W) (E : Nat) (z : Bool) (hE : 0 < E)
    (hdvd : W / E * E = W) (hW : W ≤ 512) :
    maskedRegResult old tmp E (fun _ => true) z = tmp.setWidth 512 := by
  apply BitVec.eq_of_getLsbD_eq
  intro b hb
  rw [getLsbD_maskedRegResult _ _ _ _ _ _ hE hdvd hW]
  by_cases h : b < W
  · simp [h, hb]
  · simp [h, BitVec.getLsbD_of_ge tmp b (by omega)]

theorem selected_none (s : State) : selected s 0 = fun _ => true := by
  funext j; simp [selected]

/-- With no writemask the masked writes are the plain ones (40_vextractf.md R404: the single MemWrite). -/
theorem flatMap_byteWrites {W : Nat} (la : Word) (tmp : BitVec W) (q n : Nat) :
    ((List.range n).flatMap fun j =>
      byteWrites (la + BitVec.ofNat 64 (j * q)) q (tmp.extractLsb' (j * (8 * q)) (8 * q))) =
      byteWrites la (n * q) tmp := by
  induction n with
  | zero => simp [byteWrites]
  | succ n ih =>
    rw [List.range_succ, List.flatMap_append, ih, Nat.add_one_mul n q]
    simp only [byteWrites, List.flatMap_cons, List.flatMap_nil, List.append_nil, List.range_add, List.map_append,
      List.map_map]
    congr 1
    apply List.map_congr_left
    intro i hi
    have hi := List.mem_range.1 hi
    have h1 : la + BitVec.ofNat 64 (n * q) + BitVec.ofNat 64 i = la + BitVec.ofNat 64 (n * q + i) := by
      rw [BitVec.add_assoc, ← BitVec.ofNat_add]
    have h2 : (tmp.extractLsb' (n * (8 * q)) (8 * q)).extractLsb' (8 * i) 8 = tmp.extractLsb' (8 * (n * q + i)) 8 := by
      apply BitVec.eq_of_getLsbD_eq
      intro b hb
      have h3 : 8 * i + b < 8 * q := by omega
      have h4 : n * (8 * q) + (8 * i + b) = 8 * (n * q + i) + b := by ring
      simp [hb, h3, h4]
    rw [Function.comp_apply, ← h1]
    exact congrArg (Prod.mk _) h2

theorem maskedWrites_all (la : Word) (tmp : BitVec 128) :
    maskedWrites la tmp 32 (fun _ => true) = byteWrites la 16 tmp := by
  have := flatMap_byteWrites la tmp 4 4
  simpa [maskedWrites] using this

/-- The register form of every encoding (40_vextractf.md R405, R410 to R416). -/
theorem exec_reg {i : Instr} {d : BitVec 5} (s : State) (hd : i.destReg = some d) :
    exec i s = checked (needs i s) s (.next (advance i.length (writeZmm s d
      (maskedRegResult (readZmm s d) (lane i s) i.elementBits (writesElement i s) i.mask.z)))) := by
  cases i with
  | vextractf128 pre dst src imm =>
    cases dst with
    | mem m => cases hd
    | reg r =>
      cases hd
      have h := maskedRegResult_all (readZmm s (r.setWidth 5))
        ((readZmm s (src.setWidth 5)).extractLsb' (128 * (imm.toNat % 2)) 128) 32 false (by decide) (by decide)
        (by decide)
      simp only [exec, execVextractf128, writeVex, select128_readYmm, ← h]
      simp only [← selected_none s]
      rfl
  | vextractf32x4Ymm pre wm dst src imm =>
    cases dst with
    | mem m => cases hd
    | reg r =>
      cases hd
      simp only [exec, execVextractf32x4Ymm, writeEvex, select128_readYmm]; rfl
  | vextractf32x4Zmm pre wm dst src imm =>
    cases dst with
    | mem m => cases hd
    | reg r =>
      cases hd
      simp only [exec, execVextractf32x4Zmm, writeEvex, select128_readZmm]; rfl
  | vextractf64x2Ymm pre wm dst src imm =>
    cases dst with
    | mem m => cases hd
    | reg r =>
      cases hd
      simp only [exec, execVextractf64x2Ymm, writeEvex, select128_readYmm]; rfl
  | vextractf64x2Zmm pre wm dst src imm =>
    cases dst with
    | mem m => cases hd
    | reg r =>
      cases hd
      simp only [exec, execVextractf64x2Zmm, writeEvex, select128_readZmm]; rfl
  | vextractf32x8 pre wm dst src imm =>
    cases dst with
    | mem m => cases hd
    | reg r =>
      cases hd
      simp only [exec, execVextractf32x8, writeEvex, select256_readZmm]; rfl
  | vextractf64x4 pre wm dst src imm =>
    cases dst with
    | mem m => cases hd
    | reg r =>
      cases hd
      simp only [exec, execVextractf64x4, writeEvex, select256_readZmm]; rfl

/-- The memory form of every encoding (40_vextractf.md R405, R410 to R416). -/
theorem exec_mem {i : Instr} {m : MemOp} (s : State) (hm : i.destMem = some m) :
    exec i s = checked (needs i s) s (storeTo s (segIsSS i.pre m) (destAddr i m s) (i.laneBits / 8)
      (maskedWrites (destAddr i m s) (lane i s) i.elementBits (writesElement i s)) i.length) := by
  cases i with
  | vextractf128 pre dst src imm =>
    cases dst with
    | reg r => cases hm
    | mem m =>
      cases hm
      simp only [exec, execVextractf128, writeVex, select128_readYmm]
      have h16 : (Instr.vextractf128 pre (.mem m) src imm).laneBits / 8 = 16 := by simp [Instr.laneBits, Instr.row]
      rw [show 128 / 8 = 16 from rfl, h16, ← maskedWrites_all, ← selected_none s]
      rfl
  | vextractf32x4Ymm pre wm dst src imm =>
    cases dst with
    | reg r => cases hm
    | mem m => cases hm; simp only [exec, execVextractf32x4Ymm, writeEvex, select128_readYmm]; obtain ⟨aaa, z⟩ := wm; cases z <;> rfl
  | vextractf32x4Zmm pre wm dst src imm =>
    cases dst with
    | reg r => cases hm
    | mem m => cases hm; simp only [exec, execVextractf32x4Zmm, writeEvex, select128_readZmm]; obtain ⟨aaa, z⟩ := wm; cases z <;> rfl
  | vextractf64x2Ymm pre wm dst src imm =>
    cases dst with
    | reg r => cases hm
    | mem m => cases hm; simp only [exec, execVextractf64x2Ymm, writeEvex, select128_readYmm]; obtain ⟨aaa, z⟩ := wm; cases z <;> rfl
  | vextractf64x2Zmm pre wm dst src imm =>
    cases dst with
    | reg r => cases hm
    | mem m => cases hm; simp only [exec, execVextractf64x2Zmm, writeEvex, select128_readZmm]; obtain ⟨aaa, z⟩ := wm; cases z <;> rfl
  | vextractf32x8 pre wm dst src imm =>
    cases dst with
    | reg r => cases hm
    | mem m => cases hm; simp only [exec, execVextractf32x8, writeEvex, select256_readZmm]; obtain ⟨aaa, z⟩ := wm; cases z <;> rfl
  | vextractf64x4 pre wm dst src imm =>
    cases dst with
    | reg r => cases hm
    | mem m => cases hm; simp only [exec, execVextractf64x4, writeEvex, select256_readZmm]; obtain ⟨aaa, z⟩ := wm; cases z <;> rfl

/-- An instruction writes a register or memory. -/
theorem destReg_or_destMem (i : Instr) : (∃ d, i.destReg = some d) ∨ (∃ m, i.destMem = some m) := by
  cases i <;> rename_i dst _ _ <;> cases dst <;> simp [Instr.destReg, Instr.destMem]

theorem laneBits_cases (i : Instr) : i.laneBits = 128 ∨ i.laneBits = 256 := by
  unfold Instr.laneBits; split <;> simp

theorem elementBits_cases (i : Instr) : i.elementBits = 32 ∨ i.elementBits = 64 := by
  unfold Instr.elementBits; split <;> simp

/-- A ready instruction passes the checks. -/
theorem Ready.checked_eq {i : Instr} {s : State} (h : Ready i s) (go : Result) : checked (needs i s) s go = go := by
  obtain ⟨h1, h2, h3, h4, h5⟩ := h
  simp only [osVecEnabled, Bool.and_eq_true, beq_iff_eq, Bool.not_eq_true'] at h1
  exact Machine.checked_eq (by simp [mode32, h1.1.1]) h4 h3 h2 h1.1.2 h1.2 h5

/-- What an instruction that completes has done: passed the checks, and written its register or its memory operand. -/
theorem exec_next {i : Instr} {s t : State} (h : exec i s = .next t) :
    mode32 s = false ∧ i.length ≤ Config.maxInsnLen ∧ i.maskLegal = true ∧ i.flagsSet s.features = true ∧
    stateEnabled i.evex s = true ∧ taskSwitched s = false ∧ placed i.length s = true ∧
    ((∃ d, i.destReg = some d ∧ t = advance i.length (writeZmm s d
      (maskedRegResult (readZmm s d) (lane i s) i.elementBits (writesElement i s) i.mask.z))) ∨
    (∃ m, i.destMem = some m ∧ Storable i m s ∧
      t = advance i.length (store s
        (maskedWrites (destAddr i m s) (lane i s) i.elementBits (writesElement i s))))) := by
  rcases destReg_or_destMem i with ⟨d, hd⟩ | ⟨m, hm⟩
  · rw [exec_reg s hd] at h
    obtain ⟨h1, h2, h3, h4, h5, h6, h7, h8⟩ := checked_next h
    cases h8
    exact ⟨h1, h2, h3, h4, h5, h6, h7, .inl ⟨d, hd, rfl⟩⟩
  · rw [exec_mem s hm] at h
    obtain ⟨h1, h2, h3, h4, h5, h6, h7, h8⟩ := checked_next h
    obtain ⟨h9, h10, h11⟩ := storeTo_next h8
    exact ⟨h1, h2, h3, h4, h5, h6, h7, .inr ⟨m, hm, ⟨h9, h10⟩, h11⟩⟩

/-- Everything a meaning can answer. -/
theorem exec_cases (i : Instr) (s : State) :
    (exec i s = .refused .modeOutOfScope ∧ mode32 s = true) ∨
    (exec i s = raise gp0 ∧ Config.maxInsnLen < i.length) ∨ exec i s = raise ud ∨ exec i s = raise nm ∨
    (exec i s = .refused .placement ∧ placed i.length s = false) ∨
    (∃ m, i.destMem = some m ∧ (exec i s = raise ss0 ∨ exec i s = raise gp0 ∨
      ∃ code b, b < i.laneBits / 8 ∧ code.getLsbD 1 = true ∧
        exec i s = raise (pf code (destAddr i m s + BitVec.ofNat 64 b)))) ∨
    ∃ t, exec i s = .next t := by
  rcases destReg_or_destMem i with ⟨d, hd⟩ | ⟨m, hm⟩
  · rw [exec_reg s hd]
    rcases checked_cases (needs i s) s (.next (advance i.length (writeZmm s d
      (maskedRegResult (readZmm s d) (lane i s) i.elementBits (writesElement i s) i.mask.z)))) with h | h | h | h | h | h
    · simp [h]
    · right; left; exact ⟨h.1, h.2⟩
    · simp [h]
    · simp [h]
    · right; right; right; right; left; exact ⟨h.1, h.2⟩
    · right; right; right; right; right; right; rw [h]; exact ⟨_, rfl⟩
  · rw [exec_mem s hm]
    rcases checked_cases (needs i s) s (storeTo s (segIsSS i.pre m) (destAddr i m s) (i.laneBits / 8)
      (maskedWrites (destAddr i m s) (lane i s) i.elementBits (writesElement i s)) i.length) with h | h | h | h | h | h
    · simp [h]
    · right; left; exact ⟨h.1, h.2⟩
    · simp [h]
    · simp [h]
    · right; right; right; right; left; exact ⟨h.1, h.2⟩
    · right; right; right; right; right
      rw [h]
      rcases storeTo_cases s (segIsSS i.pre m) (destAddr i m s) (i.laneBits / 8)
       (maskedWrites (destAddr i m s) (lane i s) i.elementBits (writesElement i s)) i.length with ⟨-, h'⟩ | ⟨-, c, a, ha, h'⟩ | ⟨-, -, h'⟩
      · left; refine ⟨m, hm, ?_⟩; rw [h']; cases segIsSS i.pre m <;> simp
      · left; refine ⟨m, hm, ?_⟩; rw [h']
        obtain ⟨hc, b, hb, rfl⟩ := accessAnswer_pageFault ha (by rcases laneBits_cases i with h | h <;> simp [h])
        exact .inr (.inr ⟨c, b, hb, hc, rfl⟩)
      · right; rw [h']; exact ⟨_, rfl⟩

end Sys2Proof.Machine
end

