-- ==== Sys2Proof/Laws/PerInstr.lean ====
section
/-! SUPPORT. The family EncodeLength of LAWS.json: an instruction's encoding is as long as its `length` says
(30_encoding.md R300), one lemma per constructor. -/

namespace Sys2Proof.Laws.EncodeLength

/-- The encoding's length is the instruction's length. -/
def Statement (i : Instr) : Prop := (encode i).length = i.length

theorem vextractf128 (pre : List LegacyPrefix) (dst : Dst 4) (src : BitVec 4) (imm : Byte) :
    Statement (.vextractf128 pre dst src imm) := length_encodeVex pre dst src imm

theorem vextractf32x4Ymm (pre : List LegacyPrefix) (wm : WriteMask) (dst : Dst 5) (src : BitVec 5) (imm : Byte) :
    Statement (.vextractf32x4Ymm pre wm dst src imm) := length_encodeEvex _ _ _ pre wm dst src imm

theorem vextractf32x4Zmm (pre : List LegacyPrefix) (wm : WriteMask) (dst : Dst 5) (src : BitVec 5) (imm : Byte) :
    Statement (.vextractf32x4Zmm pre wm dst src imm) := length_encodeEvex _ _ _ pre wm dst src imm

theorem vextractf64x2Ymm (pre : List LegacyPrefix) (wm : WriteMask) (dst : Dst 5) (src : BitVec 5) (imm : Byte) :
    Statement (.vextractf64x2Ymm pre wm dst src imm) := length_encodeEvex _ _ _ pre wm dst src imm

theorem vextractf64x2Zmm (pre : List LegacyPrefix) (wm : WriteMask) (dst : Dst 5) (src : BitVec 5) (imm : Byte) :
    Statement (.vextractf64x2Zmm pre wm dst src imm) := length_encodeEvex _ _ _ pre wm dst src imm

theorem vextractf32x8 (pre : List LegacyPrefix) (wm : WriteMask) (dst : Dst 5) (src : BitVec 5) (imm : Byte) :
    Statement (.vextractf32x8 pre wm dst src imm) := length_encodeEvex _ _ _ pre wm dst src imm

theorem vextractf64x4 (pre : List LegacyPrefix) (wm : WriteMask) (dst : Dst 5) (src : BitVec 5) (imm : Byte) :
    Statement (.vextractf64x4 pre wm dst src imm) := length_encodeEvex _ _ _ pre wm dst src imm

end Sys2Proof.Laws.EncodeLength
end

