-- ==== Sys2Proof/Laws/Step.lean ====
section
/-! SUPPORT. The step: what it has done when it answers a next state, and where a fault of its comes from. -/

namespace Sys2Proof.Machine

/-- A step that answers a next state has run the instruction decoded at `rip`. -/
theorem step_next {s t : State} (h : step s = .next t) :
    s.fault = none ∧ s.mode = .long64 ∧ ∃ i, decode (fetchWindow s) = .instr i ∧ exec i s = .next t := by
  unfold step at h
  split at h
  · cases h
  · rename_i hf
    split at h
    · cases h
    · rename_i hm
      refine ⟨hf, by simpa using hm, ?_⟩
      split at h
      · exact ⟨_, by assumption, h⟩
      · cases h
      · cases h
      · cases h
      · unfold fetchStop at h; split at h <;> cases h

/-- A fault of a machine without a recorded one is the decoder's, the fetch's or a meaning's. -/
theorem step_fault {s : State} {f : Fault} (hf : s.fault = none) (h : step s = .fault f) :
    f = .raised ud ∨ f = .raised gp0 ∨ (∃ a, f = .fetchUnwritten a) ∨ ∃ i, exec i s = .fault f := by
  unfold step at h
  rw [hf] at h
  simp only at h
  split at h
  · cases h
  · split at h
    · exact .inr (.inr (.inr ⟨_, h⟩))
    · cases h; simp
    · cases h; simp
    · cases h
    · unfold fetchStop at h
      split at h
      · cases h
      · cases h; simp

end Sys2Proof.Machine
end

