-- ==== Sys2Proof/Tests/Slice0.lean ====
section
/-! SUPPORT. Tests. Expected results are those of 95_test_vectors.md (its section is named at each test) or of a rule
worked by hand. A theorem witness_X shows a state and operands that meet every hypothesis of Obligations.X. -/

namespace Sys2Proof.Tests
open Sys2Proof.Machine

/-! ## The states the tests start from -/

/-- 95_test_vectors.md section 2.1: byte `i` of `Z` is `i`. -/
def Z : Zmm :=
  0x3F3E3D3C3B3A393837363534333231302F2E2D2C2B2A29282726252423222120#256 ++
    0x1F1E1D1C1B1A191817161514131211100F0E0D0C0B0A09080706050403020100#256

/-- 95_test_vectors.md section 2.1: the low 256 bits of `OLD`, and ones above. -/
def OLD : Zmm :=
  BitVec.allOnes 256 ++ 0xBFBEBDBCBBBAB9B8B7B6B5B4B3B2B1B0AFAEADACABAAA9A8A7A6A5A4A3A2A1A0#256

/-- ZMM[2] = Z, ZMM[1] = OLD, K[1] = `k`, RAX = `rax`, `rip` = 1000h, and every byte from 1FFFh to 2020h EE. -/
def st (k rax : Word) : State :=
  { State.reset with
    rip := 0x1000
    zmm := (State.reset.zmm.set 2 Z).set 1 OLD
    k := State.reset.k.set 1 k
    gpr := State.reset.gpr.set 0 rax
    mem := (List.range 34).map fun i => (0x1FFF + i, 0xEE#8) }

/-- `s` with program bytes at `rip`. -/
def withText (s : State) (bs : List Byte) : State := placeBytes s s.rip bs

/-- One step over program bytes at `rip`. -/
def run (s : State) (bs : List Byte) : Result := step (withText s bs)

/-- The step completes, and the next state is as `p` says. -/
def after (r : Result) (p : State → Bool) : Bool :=
  match r with
  | .next t => p t
  | .fault _ => false
  | .refused _ => false

theorem exists_next {r : Result} (h : after r (fun _ => true) = true) : ∃ t, r = .next t := by
  cases r with
  | next t => exact ⟨t, rfl⟩
  | fault f => cases h
  | refused r => cases h

/-- The step faults with `f`. -/
def faults (r : Result) (f : Fault) : Bool :=
  match r with
  | .next _ => false
  | .fault g => g == f
  | .refused _ => false

/-- The step is refused as `q`. -/
def refuses (r : Result) (q : Refusal) : Bool :=
  match r with
  | .next _ => false
  | .fault _ => false
  | .refused g => g == q

theorem faults_iff {r : Result} {f : Fault} : faults r f = true ↔ r = .fault f := by
  cases r <;> simp [faults]

theorem refuses_iff {r : Result} {q : Refusal} : refuses r q = true ↔ r = .refused q := by
  cases r <;> simp [refuses]

/-- ZMM[d] is `v`, zero-extended, and `rip` is `ip`. -/
def regIs {w : Nat} (d : BitVec 5) (v : BitVec w) (ip : Word) (t : State) : Bool :=
  readZmm t d == v.setWidth 512 && t.rip == ip

/-- The bytes from 1FFFh on are `bs`. -/
def bytesAre (bs : List Byte) (t : State) : Bool :=
  (List.range bs.length).all fun i => Memory.read t.mem (0x1FFF + i) == bs[i]?

/-- Four bytes EE. -/
def ee4 : List Byte := [0xEE, 0xEE, 0xEE, 0xEE]

/-! ## WellFormed: one ill-formed term for each check -/

/-- rm = 100b means a SIB byte (20_memory.md R221), so number 4 or 12 is no plain base. -/
theorem test_wf_base_needs_sib :
    (Instr.vextractf128 [] (.mem (.base 12#4 (.disp8 0))) 0 0).wf = false ∧
      (Instr.vextractf128 [] (.mem (.base 13#4 (.disp8 0))) 0 0).wf = true := by decide

/-- mod = 00b with rm = 101b means RIP-relative (R221). -/
theorem test_wf_base_five_needs_disp : (Instr.vextractf128 [] (.mem (.base 13#4 .absent)) 0 0).wf = false := by decide

/-- mod = 00b with base = 101b means no base (R221). -/
theorem test_wf_sib_five_needs_disp :
    (Instr.vextractf128 [] (.mem (.sib 5#4 0#4 0#2 .absent)) 0 0).wf = false ∧
      (Instr.vextractf128 [] (.mem (.sib 4#4 0#4 0#2 .absent)) 0 0).wf = true := by decide

/-- z = 1 with a memory destination (30_encoding.md R341). -/
theorem test_wf_zeroing_memory :
    (Instr.vextractf32x4Zmm [] { aaa := 1, z := true } (.mem (.base 0#4 .absent)) 2 1).wf = false := by decide

/-- z = 1 with no writemask (R341). -/
theorem test_wf_zeroing_no_mask :
    (Instr.vextractf64x4 [] { aaa := 0, z := true } (.reg 1) 2 1).wf = false ∧
      (Instr.vextractf64x4 [] { aaa := 1, z := true } (.reg 1) 2 1).wf = true := by decide

/-- 15 bytes are allowed, 16 are not (30_encoding.md R300). -/
theorem test_wf_length :
    (Instr.vextractf128 (List.replicate 9 .ds) (.reg 1) 2 1).wf = true ∧
      (Instr.vextractf128 (List.replicate 10 .ds) (.reg 1) 2 1).wf = false ∧
      (Instr.vextractf32x8 (List.replicate 8 .ds) { aaa := 0, z := false } (.reg 1) 2 1).wf = true ∧
      (Instr.vextractf32x8 (List.replicate 9 .ds) { aaa := 0, z := false } (.reg 1) 2 1).wf = false := by decide

/-! ## Decoding words written out from the spec's encodings (95_test_vectors.md section 2.5) -/

/-- Row 1. Byte 1 is R X B inverted and 00011; byte 2 is 0 1111 1 01 (30_encoding.md R302, R304). -/
theorem test_decode_vextractf128 :
    decode [0xC4#8, 0b11100011#8, 0b01111101#8, 0x19#8, 0b11010001#8, 0x01#8] =
      .instr (.vextractf128 [] (.reg 1) 2 1) ∧
    decode [0xC4#8, 0b01100011#8, 0x7D#8, 0x19#8, 0b01111100#8, 0b00100100#8, 0x08#8, 0x01#8] =
      .instr (.vextractf128 [] (.mem (.sib 4 4 0 (.disp8 8))) 15 1) ∧
    decode [0xC4#8, 0b01000011#8, 0x7D#8, 0x19#8, 0b01000101#8, 0x00#8, 0x00#8] =
      .instr (.vextractf128 [] (.mem (.base 13 (.disp8 0))) 8 0) ∧
    decode [0xC4#8, 0b01000011#8, 0x7D#8, 0x19#8, 0b00000100#8, 0b00100100#8, 0x00#8] =
      .instr (.vextractf128 [] (.mem (.sib 12 4 0 .absent)) 8 0) := by decide

/-- Row 2: P0 = R X B R' inverted and 0011, P1 = W 1111 1 01, P2 = z L'L b V' aaa (30_encoding.md R305). -/
theorem test_decode_vextractf32x4Ymm :
    decode [0x62#8, 0b11110011#8, 0b01111101#8, 0b00101000#8, 0x19#8, 0b11010001#8, 0x01#8] =
      .instr (.vextractf32x4Ymm [] { aaa := 0, z := false } (.reg 1) 2 1) ∧
    decode [0x62#8, 0xF3#8, 0x7D#8, 0b10101010#8, 0x19#8, 0b11110111#8, 0x01#8] =
      .instr (.vextractf32x4Ymm [] { aaa := 2, z := true } (.reg 7) 6 1) := by decide

/-- Row 3, with a fifth register bit from R' and from X, a scaled one-byte displacement, a four-byte one, and the
prefixes 64 and 67. -/
theorem test_decode_vextractf32x4Zmm :
    decode [0x62#8, 0b00100011#8, 0x7D#8, 0b11001010#8, 0x19#8, 0b11110001#8, 0x02#8] =
      .instr (.vextractf32x4Zmm [] { aaa := 2, z := true } (.reg 17) 30 2) ∧
    decode [0x62#8, 0xF3#8, 0x7D#8, 0b01001011#8, 0x19#8, 0b01010000#8, 0x01#8, 0x03#8] =
      .instr (.vextractf32x4Zmm [] { aaa := 3, z := false } (.mem (.base 0 (.disp8 1))) 2 3) ∧
    decode [0x62#8, 0xF3#8, 0x7D#8, 0x48#8, 0x19#8, 0b10010000#8, 0x08#8, 0x00#8, 0x00#8, 0x00#8, 0x03#8] =
      .instr (.vextractf32x4Zmm [] { aaa := 0, z := false } (.mem (.base 0 (.disp32 8))) 2 3) ∧
    decode [0x64#8, 0x67#8, 0x62#8, 0xF3#8, 0x7D#8, 0x48#8, 0x19#8, 0b00001000#8, 0x00#8] =
      .instr (.vextractf32x4Zmm [.fs, .addrSize] { aaa := 0, z := false } (.mem (.base 0 .absent)) 1 0) := by decide

/-- Rows 4 and 5: W = 1. -/
theorem test_decode_vextractf64x2 :
    decode [0x62#8, 0xF3#8, 0b11111101#8, 0b00101000#8, 0x19#8, 0b11011100#8, 0x01#8] =
      .instr (.vextractf64x2Ymm [] { aaa := 0, z := false } (.reg 4) 3 1) ∧
    decode [0x62#8, 0xF3#8, 0b11111101#8, 0b01001001#8, 0x19#8, 0b01010100#8, 0b10001011#8, 0x02#8, 0x02#8] =
      .instr (.vextractf64x2Zmm [] { aaa := 1, z := false } (.mem (.sib 3 1 2 (.disp8 2))) 2 2) := by decide

/-- Row 6: opcode 1B; a base of 5 and a negative displacement with R' set and R clear. -/
theorem test_decode_vextractf32x8 :
    decode [0x62#8, 0xF3#8, 0x7D#8, 0b11001001#8, 0x1B#8, 0b11010001#8, 0x01#8] =
      .instr (.vextractf32x8 [] { aaa := 1, z := true } (.reg 1) 2 1) ∧
    decode [0x62#8, 0b11100011#8, 0x7D#8, 0b01001101#8, 0x1B#8, 0b01000100#8, 0b01110101#8, 0xFE#8, 0x01#8] =
      .instr (.vextractf32x8 [] { aaa := 5, z := false } (.mem (.sib 5 6 1 (.disp8 0xFE))) 16 1) := by decide

/-- Row 7: RIP-relative; an index and a base extended by X and B. -/
theorem test_decode_vextractf64x4 :
    decode [0x62#8, 0xF3#8, 0xFD#8, 0x48#8, 0x1B#8, 0b00000101#8, 0x00#8, 0x01#8, 0x00#8, 0x00#8, 0x01#8] =
      .instr (.vextractf64x4 [] { aaa := 0, z := false } (.mem (.ripRel 0x100)) 0 1) ∧
    decode [0x62#8, 0b00010011#8, 0xFD#8, 0x48#8, 0x1B#8, 0b10000100#8, 0b11101100#8, 0x00#8, 0x10#8, 0x00#8, 0x00#8,
        0x01#8] =
      .instr (.vextractf64x4 [] { aaa := 0, z := false } (.mem (.sib 12 13 3 (.disp32 0x1000))) 8 1) := by decide

/-- A SIB byte with no base (20_memory.md R221): mod = 00b, base = 101b, whatever B is; index 12 is X = 1, 100b. -/
theorem test_decode_no_base :
    decode [0xC4#8, 0b10000011#8, 0x7D#8, 0x19#8, 0b00010100#8, 0b01100101#8, 0x10#8, 0x20#8, 0x00#8, 0x80#8, 0x01#8] =
      .instr (.vextractf128 [] (.mem (.sibNoBase 12 1 0x80002010)) 2 1) := by decide

/-- The encoder writes the assembler's bytes (30_encoding.md R304, R306). -/
theorem test_encode :
    encode (.vextractf128 [] (.reg 9) 10 0) = [0xC4#8, 0x43#8, 0x7D#8, 0x19#8, 0xD1#8, 0x00#8] ∧
    encode (.vextractf64x4 [] { aaa := 7, z := false } (.mem (.base 6 (.disp8 0xFF))) 31 1) =
      [0x62#8, 0x63#8, 0xFD#8, 0x4F#8, 0x1B#8, 0x7E#8, 0xFF#8, 0x01#8] := by decide

/-- Illegal encodings (95_test_vectors.md section 2.6). -/
theorem test_decode_illegal :
    ([[0xC4, 0xE3, 0x79, 0x19, 0xD1, 0x01], [0xC4, 0xE3, 0x75, 0x19, 0xD1, 0x01], [0xC4, 0xE3, 0x05, 0x19, 0xD1, 0x01],
      [0x62, 0xF3, 0x75, 0x48, 0x19, 0xD1, 0x01], [0x62, 0xF3, 0x85, 0x48, 0x1B, 0xD1, 0x01],
      [0xC4, 0xE3, 0xFD, 0x19, 0xD1, 0x01], [0x62, 0xF3, 0x7D, 0x08, 0x19, 0xD1, 0x01],
      [0x62, 0xF3, 0x7D, 0x68, 0x19, 0xD1, 0x01], [0x62, 0xF3, 0x7D, 0x28, 0x1B, 0xD1, 0x01],
      [0x62, 0xF3, 0xFD, 0x08, 0x1B, 0xD1, 0x01]] : List (List Byte)).all
        (fun bs => decode bs == .undefinedOpcode) = true := by decide

/-- More illegal encodings (section 2.6): b, V', the reserved bits, zeroing, and forbidden prefixes. -/
theorem test_decode_illegal_more :
    ([[0x62, 0xF3, 0x7D, 0x58, 0x19, 0xD1, 0x01], [0x62, 0xF3, 0x7D, 0x40, 0x19, 0xD1, 0x01],
      [0x62, 0xF7, 0x7D, 0x48, 0x19, 0xD1, 0x01], [0x62, 0xF3, 0x79, 0x48, 0x19, 0xD1, 0x01],
      [0x62, 0xF3, 0x7D, 0xC9, 0x19, 0x10, 0x01], [0x62, 0xF3, 0x7D, 0xC8, 0x19, 0xD1, 0x01],
      [0x66, 0xC4, 0xE3, 0x7D, 0x19, 0xD1, 0x01], [0xF0, 0x62, 0xF3, 0x7D, 0x48, 0x19, 0x10, 0x01],
      [0x48, 0xC4, 0xE3, 0x7D, 0x19, 0xD1, 0x01]] : List (List Byte)).all
        (fun bs => decode bs == .undefinedOpcode) = true := by decide

/-- Out of scope (section 2.6): opcode 18, opcode 39, pp = 00b, map 0F38. -/
theorem test_decode_out_of_scope :
    ([[0xC4, 0xE3, 0x7D, 0x18, 0xD1, 0x01], [0x62, 0xF3, 0x7D, 0x48, 0x39, 0xD1, 0x01],
      [0xC4, 0xE3, 0x7C, 0x19, 0xD1, 0x01], [0xC4, 0xE2, 0x7D, 0x19, 0xD1]] : List (List Byte)).all
        (fun bs => decode bs == .outOfScope) = true := by decide

/-- Nine segment prefixes make 15 bytes and decode, ten make 16 and do not (section 2.8). -/
theorem test_decode_length :
    decode (List.replicate 9 0x3E#8 ++ [0xC4#8, 0xE3#8, 0x7D#8, 0x19#8, 0xD1#8, 0x01#8]) =
      .instr (.vextractf128 (List.replicate 9 .ds) (.reg 1) 2 1) ∧
    decode (List.replicate 10 0x3E#8 ++ [0xC4#8, 0xE3#8, 0x7D#8, 0x19#8, 0xD1#8, 0x01#8]) = .tooLong := by decide

/-- The opcode table's numbering: the first byte is bits 7 to 0. -/
theorem test_decodeTableWord :
    decodeTableWord 40 0x1948FDF362 = some (.vextractf64x2Zmm [] { aaa := 0, z := false } (.mem (.base 0 .absent)) 0 0) ∧
    decodeTableWord 32 0x197DE3C4 = some (.vextractf128 [] (.mem (.base 0 .absent)) 0 0) ∧
    decodeTableWord 32 0x1979E3C4 = none := by decide

/-- A loaded word runs as the first instruction after reset. -/
theorem test_withFetchWord :
    after (step (State.reset.withFetchWord 40 0x1B48FDF362)) (fun t => t.rip == 7) = true := by decide

/-! ## Effective addresses (95_test_vectors.md section 2.7) -/

/-- A state with these general registers. -/
def gprs (l : List (Fin 16 × Word)) : State :=
  { State.reset with rip := 0x1000, fsBase := 0x70000000, gpr := l.foldl (fun g p => g.set p.1 p.2) State.reset.gpr }

/-- The linear address of the memory destination the bytes decode to, and whether its segment is SS. -/
def addrOf (s : State) (bs : List Byte) : Option (Word × Bool) :=
  match decode bs with
  | .instr i => i.destMem.map fun m => (destAddr i m s, segIsSS i.pre m)
  | _ => none

theorem test_address_plain :
    addrOf (gprs [(0, 0x2000)]) [0xC4, 0xE3, 0x7D, 0x19, 0x10, 0x01] = some (0x2000, false) ∧
    addrOf (gprs [(4, 0x7FFFFFFFE000)]) [0xC4, 0x63, 0x7D, 0x19, 0x7C, 0x24, 0x08, 0x01] =
      some (0x7FFFFFFFE008, true) ∧
    addrOf (gprs [(13, 0x5000)]) [0xC4, 0x43, 0x7D, 0x19, 0x45, 0x00, 0x00] = some (0x5000, false) := by decide

theorem test_address_scaled :
    addrOf (gprs [(0, 0x2000)]) [0x62, 0xF3, 0x7D, 0x4B, 0x19, 0x50, 0x01, 0x03] = some (0x2010, false) ∧
    addrOf (gprs [(0, 0x2000)]) [0x62, 0xF3, 0x7D, 0x48, 0x19, 0x90, 0x08, 0x00, 0x00, 0x00, 0x03] =
      some (0x2008, false) ∧
    addrOf (gprs [(3, 0x1000), (1, 0x10)]) [0x62, 0xF3, 0xFD, 0x49, 0x19, 0x54, 0x8B, 0x02, 0x02] =
      some (0x1060, false) ∧
    addrOf (gprs [(7, 0x3000)]) [0x62, 0xF3, 0x7D, 0x48, 0x1B, 0x57, 0x02, 0x01] = some (0x3040, false) ∧
    addrOf (gprs [(6, 0x4000)]) [0x62, 0x63, 0xFD, 0x4F, 0x1B, 0x7E, 0xFF, 0x01] = some (0x3FE0, false) ∧
    addrOf (gprs [(5, 0x8000), (6, 0x100)]) [0x62, 0xE3, 0x7D, 0x4D, 0x1B, 0x44, 0x75, 0xFE, 0x01] =
      some (0x81C0, true) := by decide

theorem test_address_special :
    addrOf (gprs []) [0x62, 0xF3, 0xFD, 0x48, 0x1B, 0x05, 0x00, 0x01, 0x00, 0x00, 0x01] = some (0x110B, false) ∧
    addrOf (gprs [(12, 0x10000), (13, 3)])
        [0x62, 0x13, 0xFD, 0x48, 0x1B, 0x84, 0xEC, 0x00, 0x10, 0x00, 0x00, 0x01] = some (0x11018, false) ∧
    addrOf (gprs [(0, 0x20)]) [0x64, 0x62, 0xF3, 0x7D, 0x48, 0x19, 0x08, 0x00] = some (0x70000020, false) ∧
    addrOf (gprs [(0, 0xFFFFFFFF00002000)]) [0x67, 0x62, 0xF3, 0x7D, 0x48, 0x19, 0x08, 0x00] =
      some (0x2000, false) ∧
    addrOf (gprs [(0, 0xFFFFFFFFFFFFFFF8)]) [0x62, 0xF3, 0x7D, 0x4B, 0x19, 0x50, 0x01, 0x03] =
      some (0x8, false) := by decide

/-! ## One instruction, one step (95_test_vectors.md sections 2.3 and 2.4) -/

/-- `C4 E3 7D 19 D1 01`: ZMM[1] = zext(L1), the old upper bits gone. -/
theorem test_vextractf128_register :
    after (run (st 0 0) [0xC4, 0xE3, 0x7D, 0x19, 0xD1, 0x01])
      (regIs 1 0x1F1E1D1C1B1A19181716151413121110#128 0x1006) = true := by decide +kernel

/-- `vextractf128 [rax], ymm2, 1`. -/
theorem test_vextractf128_memory :
    after (run (st 0 0x2000) [0xC4, 0xE3, 0x7D, 0x19, 0x10, 0x01])
      (bytesAre ([0xEE, 0x10, 0x11, 0x12, 0x13, 0x14, 0x15, 0x16, 0x17, 0x18, 0x19, 0x1A, 0x1B, 0x1C, 0x1D, 0x1E, 0x1F,
        0xEE])) = true := by decide

/-- `62 F3 7D 29 19 D1 01`, K[1] = 5: merging. -/
theorem test_vextractf32x4Ymm_register :
    after (run (st 5 0) [0x62, 0xF3, 0x7D, 0x29, 0x19, 0xD1, 0x01])
      (regIs 1 0xAFAEADAC1B1A1918A7A6A5A413121110#128 0x1007) = true := by decide +kernel

/-- `vextractf32x4 [rax]{k1}, ymm2, 1`, K[1] = 5: elements 0 and 2 of L1 (40_vextractf.md R404). -/
theorem test_vextractf32x4Ymm_memory :
    after (run (st 5 0x2000) [0x62, 0xF3, 0x7D, 0x29, 0x19, 0x10, 0x01])
      (bytesAre ([0xEE, 0x10, 0x11, 0x12, 0x13] ++ ee4 ++ [0x18, 0x19, 0x1A, 0x1B] ++ ee4 ++ [0xEE])) = true := by
  decide

/-- `vextractf32x4 xmm1{k1}{z}, zmm2, 3`, K[1] = A: zeroing. -/
theorem test_vextractf32x4Zmm_register :
    after (run (st 0xA 0) [0x62, 0xF3, 0x7D, 0xC9, 0x19, 0xD1, 0x03])
      (regIs 1 0x3F3E3D3C000000003736353400000000#128 0x1007) = true := by decide +kernel

/-- `vextractf32x4 [rax]{k1}, zmm2, 3`, K[1] = 5. -/
theorem test_vextractf32x4Zmm_memory :
    after (run (st 5 0x2000) [0x62, 0xF3, 0x7D, 0x49, 0x19, 0x10, 0x03])
      (bytesAre ([0xEE, 0x30, 0x31, 0x32, 0x33] ++ ee4 ++ [0x38, 0x39, 0x3A, 0x3B] ++ ee4 ++ [0xEE])) = true := by
  decide

/-- `vextractf64x2 xmm1{k1}{z}, ymm2, 1`, K[1] = 2. -/
theorem test_vextractf64x2Ymm_register :
    after (run (st 2 0) [0x62, 0xF3, 0xFD, 0xA9, 0x19, 0xD1, 0x01])
      (regIs 1 0x1F1E1D1C1B1A19180000000000000000#128 0x1007) = true := by decide +kernel

/-- `vextractf64x2 [rax]{k1}, ymm2, 0`, K[1] = 1. -/
theorem test_vextractf64x2Ymm_memory :
    after (run (st 1 0x2000) [0x62, 0xF3, 0xFD, 0x29, 0x19, 0x10, 0x00])
      (bytesAre ([0xEE, 0x00, 0x01, 0x02, 0x03, 0x04, 0x05, 0x06, 0x07] ++ ee4 ++ ee4 ++ [0xEE])) = true := by decide

/-- `vextractf64x2 xmm1{k1}, zmm2, 2`, K[1] = 1. -/
theorem test_vextractf64x2Zmm_register :
    after (run (st 1 0) [0x62, 0xF3, 0xFD, 0x49, 0x19, 0xD1, 0x02])
      (regIs 1 0xAFAEADACABAAA9A82726252423222120#128 0x1007) = true := by decide +kernel

/-- `vextractf64x2 [rax]{k1}, zmm2, 1`, K[1] = 2. -/
theorem test_vextractf64x2Zmm_memory :
    after (run (st 2 0x2000) [0x62, 0xF3, 0xFD, 0x49, 0x19, 0x10, 0x01])
      (bytesAre ([0xEE] ++ ee4 ++ ee4 ++ [0x18, 0x19, 0x1A, 0x1B, 0x1C, 0x1D, 0x1E, 0x1F, 0xEE])) = true := by decide

/-- `vextractf32x8 ymm1{k1}, zmm2, 1`, K[1] = 1A5: mask bits above 7 are ignored. -/
theorem test_vextractf32x8_register :
    after (run (st 0x1A5 0) [0x62, 0xF3, 0x7D, 0x49, 0x1B, 0xD1, 0x01])
      (regIs 1 0x3F3E3D3CBBBAB9B837363534B3B2B1B0AFAEADAC2B2A2928A7A6A5A423222120#256 0x1007) = true := by
  decide +kernel

/-- `vextractf32x8 [rax]{k1}, zmm2, 1`, K[1] = A5. -/
theorem test_vextractf32x8_memory :
    after (run (st 0xA5 0x2000) [0x62, 0xF3, 0x7D, 0x49, 0x1B, 0x10, 0x01])
      (bytesAre ([0xEE, 0x20, 0x21, 0x22, 0x23] ++ ee4 ++ [0x28, 0x29, 0x2A, 0x2B] ++ ee4 ++ ee4 ++
        [0x34, 0x35, 0x36, 0x37] ++ ee4 ++ [0x3C, 0x3D, 0x3E, 0x3F, 0xEE])) = true := by decide

/-- `vextractf64x4 ymm2{k1}, zmm2, 1`, K[1] = 9: the source is the destination. -/
theorem test_vextractf64x4_register :
    after (run (st 9 0) [0x62, 0xF3, 0xFD, 0x49, 0x1B, 0xD2, 0x01])
      (regIs 2 0x3F3E3D3C3B3A393817161514131211100F0E0D0C0B0A09082726252423222120#256 0x1007) = true := by
  decide +kernel

/-- `vextractf64x4 [rax]{k1}, zmm2, 0`, K[1] = 6. -/
theorem test_vextractf64x4_memory :
    after (run (st 6 0x2000) [0x62, 0xF3, 0xFD, 0x49, 0x1B, 0x10, 0x00])
      (bytesAre ([0xEE] ++ ee4 ++ ee4 ++ [0x08, 0x09, 0x0A, 0x0B, 0x0C, 0x0D, 0x0E, 0x0F, 0x10, 0x11, 0x12, 0x13, 0x14,
        0x15, 0x16, 0x17] ++ ee4 ++ ee4 ++ [0xEE])) = true := by decide

/-! ## Faults (95_test_vectors.md sections 2.7 and 2.8) -/

/-- One page refused: 3000h to 3FFFh and every operand that reaches into it. -/
def refused : State :=
  { st 0 0x2FF0 with
    access := [{ first := 0x2FE1, last := 0x3FFF, bytes := 32, code := 4, addr := some 0x3000 }] }

/-- RAX = 2FF0h with the page from 3000h refused: #PF at 3000h, with the write bit set. -/
theorem test_page_fault :
    run refused [0x62, 0xF3, 0xFD, 0x48, 0x1B, 0x10, 0x00] = .fault (.raised (pf 6 0x3000)) := by
  simp only [← faults_iff]; decide

/-- An operand whose last eight bytes are not canonical: #GP(0) with RAX, #SS(0) with RSP. -/
theorem test_not_canonical :
    run (st 0 0x7FFFFFFFFFF8) [0xC4, 0xE3, 0x7D, 0x19, 0x10, 0x01] = .fault (.raised gp0) ∧
    run (gprs [(4, 0x800000000000)]) [0xC4, 0x63, 0x7D, 0x19, 0x7C, 0x24, 0x08, 0x01] = .fault (.raised ss0) := by
  simp only [← faults_iff]; decide

/-- No AVX512DQ, no AVX512VL: #UD. -/
theorem test_missing_feature :
    run { st 0 0 with features := { avx := true, avx512f := true, avx512vl := true, avx512dq := false } }
      [0x62, 0xF3, 0xFD, 0x28, 0x19, 0xDC, 0x01] = .fault (.raised ud) ∧
    run { st 0 0 with features := { avx := true, avx512f := true, avx512vl := false, avx512dq := true } }
      [0x62, 0xF3, 0x7D, 0x28, 0x19, 0xD1, 0x01] = .fault (.raised ud) := by
  simp only [← faults_iff]; decide

/-- CR0.TS = 1: #NM; opmask state off: #UD for EVEX, none for VEX (60_exceptions.md R605 to R607). -/
theorem test_enables :
    run { st 0 0 with cr0 := 0xE0000019 } [0xC4, 0xE3, 0x7D, 0x19, 0xD1, 0x01] = .fault (.raised nm) ∧
    run { st 0 0 with xcr0 := 7 } [0x62, 0xF3, 0x7D, 0x28, 0x19, 0xD1, 0x01] = .fault (.raised ud) ∧
    after (run { st 0 0x2000 with xcr0 := 7 } [0xC4, 0xE3, 0x7D, 0x19, 0x10, 0x01]) (fun t => t.rip == 0x1006) =
      true := by
  simp only [← faults_iff]; decide

/-- A recorded fault stops the machine (60_exceptions.md R630); a page fault leaves its address in CR2 (R608). -/
theorem test_fault_is_kept :
    let t := afterStep (withText refused [0x62, 0xF3, 0xFD, 0x48, 0x1B, 0x10, 0x00])
    t.rip = 0x1000 ∧ t.cr2 = 0x3000 ∧ step t = .fault (.raised (pf 6 0x3000)) := by
  simp only [← faults_iff]; decide

/-- Bytes an in-scope store has written are not run (20_memory.md R243); bytes nothing has written have no value. -/
theorem test_fetch_stops :
    step { st 0 0x1006 with mem := [(0x1000, 0xC4#8), (0x1001, 0xE3#8), (0x1002, 0x7D#8)], stored := [0x1002] } =
      .refused (.selfModifying 0x1002) ∧
    step { st 0 0 with mem := [(0x1000, 0xC4#8)] } = .fault (.fetchUnwritten 0x1001) := by
  simp only [← faults_iff, ← refuses_iff]; decide

/-! ## Witnesses: the decoder's statements -/

theorem witness_DecodeEncodeRoundTrip :
    (Instr.vextractf128 [.gs] (.mem (.sibNoBase 4 3 0xFFFFFFFF)) 15 255).wf = true ∧
    (Instr.vextractf32x4Ymm [] { aaa := 7, z := true } (.reg 31) 0 0).wf = true ∧
    (Instr.vextractf32x4Zmm [.addrSize] { aaa := 1, z := false } (.mem (.ripRel 0x80000000)) 31 3).wf = true ∧
    (Instr.vextractf64x2Ymm [] { aaa := 0, z := false } (.mem (.sib 13 12 1 (.disp8 128))) 16 1).wf = true ∧
    (Instr.vextractf64x2Zmm [] { aaa := 2, z := true } (.reg 0) 31 2).wf = true ∧
    (Instr.vextractf32x8 [] { aaa := 3, z := false } (.mem (.base 15 .absent)) 8 1).wf = true ∧
    (Instr.vextractf64x4 (List.replicate 8 .cs) { aaa := 4, z := true } (.reg 15) 15 0).wf = true := by decide

theorem witness_DecodedInstructionIsWellFormed :
    decode [0xC4#8, 0xE3#8, 0x7D#8, 0x19#8, 0xD1#8, 0x01#8, 0xFF#8] = .instr (.vextractf128 [] (.reg 1) 2 1) ∧
    decode [0x62#8, 0x63#8, 0xFD#8, 0x4F#8, 0x1B#8, 0x7E#8, 0xFF#8, 0x01#8, 0xFF#8] =
      .instr (.vextractf64x4 [] { aaa := 7, z := false } (.mem (.base 6 (.disp8 255))) 31 1) := by decide

theorem witness_DecodingReadsOnlyItsLength :
    decode [0xC4#8, 0xE3#8, 0x7D#8, 0x19#8, 0xD1#8, 0x01#8, 0xFF#8] = .instr (.vextractf128 [] (.reg 1) 2 1) :=
  witness_DecodedInstructionIsWellFormed.1

/-- Bytes that decode, for the first clause. For the others: row 1 with X clear although the operand has none, row 7 with
R, X, B and R' all clear and zeroing, of 15 bytes each, the most. -/
theorem witness_DecodedRowMatchesBitPattern :
    ((0x62#8 : Byte) = 0xC4#8 ∨ (0x62#8 : Byte) = 0x62#8) ∧
    decode ([].map LegacyPrefix.byte ++ [0x62#8, 0x63#8, 0xFD#8, 0x4F#8, 0x1B#8, 0x7E#8, 0xFF#8, 0x01#8, 0xFF#8]) =
      .instr (.vextractf64x4 [] { aaa := 7, z := false } (.mem (.base 6 (.disp8 255))) 31 1) ∧
    Instr.rowMatches 1 (0xC4#8 ++ 0b10100011#8 ++ 0x7D#8 ++ 0x19#8 ++ 0xD1#8) = true ∧
    tailLength [0xD1, 0x01] = 2 ∧ (List.replicate 9 LegacyPrefix.ds).length + 4 + tailLength [0xD1, 0x01] = 15 ∧
    2 ≤ 7 ∧ Instr.rowMatches 7 (0x62#8 ++ 0x03#8 ++ 0xFD#8 ++ 0xC9#8 ++ 0x1B#8) = true ∧ (0xC9#8).getLsbD 7 = true ∧
    ([0xD1#8, 0x01#8].getD 0 0).extractLsb' 6 2 = 0b11#2 ∧ (0xC9#8).extractLsb' 0 3 ≠ 0b000#3 ∧
    (List.replicate 8 LegacyPrefix.ds).length + 5 + tailLength [0xD1, 0x01] = 15 := by decide

/-- The forms whose X or B is free: a register, RIP-relative, and SIB with no base; and one where B counts. -/
theorem witness_UnusedExtensionBitsAreIgnored :
    ([0x19#8, 0xD1#8].getD 1 0).extractLsb' 6 2 = 0b11#2 ∧ ([0x19#8, 0x10#8].getD 1 0).extractLsb' 0 3 ≠ 0b100#3 ∧
    (([0x10#8].getD 0 0).extractLsb' 6 2 ≠ 0b11#2 ∧ ([0x10#8].getD 0 0).extractLsb' 0 3 ≠ 0b100#3) ∧
    noBase [0x05#8] ∧ noBase ([0x19#8, 0x04#8, 0x25#8].drop 1) ∧ ¬ noBase [0x45#8] := by
  unfold noBase; decide

/-- The other value of X and of B decodes alike where no operand uses it (30_encoding.md R313, 20_memory.md R221), and
not where one does. -/
theorem test_decode_unused_bits :
    decode [0xC4#8, 0xA3#8, 0x7D#8, 0x19#8, 0xD1#8, 0x01#8] = .instr (.vextractf128 [] (.reg 1) 2 1) ∧
    decode [0x62#8, 0b10010011#8, 0xFD#8, 0x48#8, 0x1B#8, 0x05#8, 0x00#8, 0x01#8, 0x00#8, 0x00#8, 0x01#8] =
      .instr (.vextractf64x4 [] { aaa := 0, z := false } (.mem (.ripRel 0x100)) 0 1) ∧
    decode [0x62#8, 0xB3#8, 0x7D#8, 0x48#8, 0x19#8, 0xD1#8, 0x01#8] =
      .instr (.vextractf32x4Zmm [] { aaa := 0, z := false } (.reg 17) 2 1) := by decide

/-- `C4 E3 79 19 D1 01` after one prefix, as the fetched bytes; and the long case, with ten prefixes: 16 bytes. -/
theorem witness_VexLengthZeroRaisesInvalidOpcode :
    let s := withText (st 0 0) ([LegacyPrefix.ds].map LegacyPrefix.byte ++ [0xC4, 0xE3, 0x79, 0x19, 0xD1, 0x01])
    let l := withText (st 0 0) ((List.replicate 10 LegacyPrefix.ds).map LegacyPrefix.byte ++
      [0xC4, 0xE3, 0x79, 0x19, 0xD1, 0x01])
    s.fault = none ∧ s.mode = .long64 ∧
      fetchWindow s = [LegacyPrefix.ds].map LegacyPrefix.byte ++ 0xC4#8 :: 0xE3#8 :: 0x79#8 :: 0x19#8 :: [0xD1, 0x01] ∧
      (0xE3#8).extractLsb' 0 5 = 0b00011#5 ∧ (0x79#8).extractLsb' 0 2 = 0b01#2 ∧ (0x79#8).getLsbD 2 = false ∧
      step s = .fault (.raised ud) ∧
      fetchWindow l = (List.replicate 10 LegacyPrefix.ds).map LegacyPrefix.byte ++
        0xC4#8 :: 0xE3#8 :: 0x79#8 :: 0x19#8 :: [0xD1] ∧
      (fetchWindow l).length = 15 ∧ (List.replicate 10 LegacyPrefix.ds).length + 4 + tailLength [0xD1] = 16 ∧
      step l = .fault (.raised gp0) := by
  simp only [← faults_iff]; decide

/-- A VEX and an EVEX encoding with #UD, and the EVEX one with nine prefixes: 16 bytes, #GP(0). -/
theorem witness_VvvvNotOnesRaisesInvalidOpcode :
    let s := withText (st 0 0) [0xC4, 0xE3, 0x75, 0x19, 0xD1, 0x01]
    let e := withText (st 0 0) [0x62, 0xF3, 0x85, 0x48, 0x1B, 0xD1, 0x01]
    let l := withText (st 0 0) (List.replicate 9 0x3E#8 ++ [0x62, 0xF3, 0x85, 0x48, 0x1B, 0xD1, 0x01])
    s.fault = none ∧ s.mode = .long64 ∧
      fetchWindow s = [].map LegacyPrefix.byte ++ 0xC4#8 :: 0xE3#8 :: 0x75#8 :: 0x19#8 :: [0xD1, 0x01] ∧
      (0xE3#8).extractLsb' 0 5 = 0b00011#5 ∧ (0x75#8).extractLsb' 0 2 = 0b01#2 ∧
      (0x75#8).extractLsb' 3 4 ≠ 0b1111#4 ∧ e.fault = none ∧ e.mode = .long64 ∧
      fetchWindow e = [].map LegacyPrefix.byte ++ 0x62#8 :: 0xF3#8 :: 0x85#8 :: 0x48#8 :: 0x1B#8 :: [0xD1, 0x01] ∧
      (0xF3#8).extractLsb' 0 2 = 0b11#2 ∧ (0x85#8).extractLsb' 0 2 = 0b01#2 ∧
      (0x85#8).extractLsb' 3 4 ≠ 0b1111#4 ∧ step e = .fault (.raised ud) ∧
      fetchWindow l = (List.replicate 9 LegacyPrefix.ds).map LegacyPrefix.byte ++
        0x62#8 :: 0xF3#8 :: 0x85#8 :: 0x48#8 :: 0x1B#8 :: [0xD1] ∧
      (fetchWindow l).length = 15 ∧ (List.replicate 9 LegacyPrefix.ds).length + 5 + tailLength [0xD1] = 16 ∧
      step l = .fault (.raised gp0) := by
  simp only [← faults_iff]; decide

/-- One field value for each near miss; the bytes are those of 95_test_vectors.md section 2.6. -/
theorem witness_NearMissEncodingsAreInvalid :
    ((0xE3#8).extractLsb' 0 5 = 0b00011#5 ∧ (0xFD#8).extractLsb' 0 2 = 0b01#2 ∧ (0xFD#8).getLsbD 7 = true) ∧
    ((0xF3#8).extractLsb' 0 2 = 0b11#2 ∧ (0x7D#8).extractLsb' 0 2 = 0b01#2) ∧
    ((0xF7#8).extractLsb' 0 2 = 0b11#2 ∧ (0xF7#8).extractLsb' 2 2 ≠ 0b00#2) ∧
    ((0x79#8).extractLsb' 0 2 = 0b01#2 ∧ (0x79#8).getLsbD 2 = false) ∧
    (0x40#8).getLsbD 3 = false ∧ (0x58#8).getLsbD 4 = true ∧
    ((0x08#8).extractLsb' 5 2 ≠ 0b01#2 ∧ (0x08#8).extractLsb' 5 2 ≠ 0b10#2) ∧
    ((0x68#8).extractLsb' 5 2 ≠ 0b01#2 ∧ (0x68#8).extractLsb' 5 2 ≠ 0b10#2) ∧
    (0x28#8).extractLsb' 5 2 ≠ 0b10#2 ∧
    ((0xC9#8).getLsbD 7 = true ∧ (0x10#8).extractLsb' 6 2 ≠ 0b11#2) ∧
    ((0xC8#8).getLsbD 7 = true ∧ (0xC8#8).extractLsb' 0 3 = 0b000#3) ∧
    ((0xF2#8).extractLsb' 0 2 ≠ 0b11#2 ∧ (0x78#8).extractLsb' 0 2 ≠ 0b01#2 ∧ (0x78#8).getLsbD 2 = false ∧
      (0x39#8 : Byte) ≠ 0x19#8 ∧ (0x39#8 : Byte) ≠ 0x1B#8) ∧
    (15 ≤ (List.replicate 10 LegacyPrefix.ds).length + 4 + [0xD1#8].length ∧
      15 < (List.replicate 10 LegacyPrefix.ds).length + 4 + tailLength [0xD1]) ∧
    (15 ≤ (List.replicate 9 LegacyPrefix.ds).length + 6 + ([] : List Byte).length ∧
      15 < (List.replicate 9 LegacyPrefix.ds).length + 5 + tailLength [0xD1]) := by decide

/-- EVEX with a reserved bit wrong is #UD whatever the opcode, pp and map (30_encoding.md R332 step 3, R341). -/
theorem test_decode_reserved_bits :
    decode [0x62#8, 0xF7#8, 0x7D#8, 0x48#8, 0x39#8, 0xD1#8, 0x01#8] = .undefinedOpcode ∧
    decode [0x62#8, 0xF3#8, 0x78#8, 0x48#8, 0x19#8, 0xD1#8, 0x01#8] = .undefinedOpcode ∧
    decode [0x62#8, 0xFA#8, 0x7D#8, 0x48#8, 0x19#8, 0xD1#8] = .undefinedOpcode := by decide

/-- Each forbidden byte; and the long cases, of 16 bytes, with the shortest rests that make 15 bytes there. -/
theorem witness_ForbiddenPrefixIsInvalid :
    (∀ p ∈ [0x64#8] ++ [0x48#8], (legacyPrefixOf p).isSome = true ∨ forbiddenPrefix p = true) ∧
      forbiddenPrefix 0x66#8 = true ∧ forbiddenPrefix 0xF2#8 = true ∧ forbiddenPrefix 0xF3#8 = true ∧
      forbiddenPrefix 0xF0#8 = true ∧ forbiddenPrefix 0x40#8 = true ∧ forbiddenPrefix 0x4F#8 = true ∧
      forbiddenPrefix 0x50#8 = false ∧
      (0xE3#8).extractLsb' 0 5 = 0b00011#5 ∧ (0x7D#8).extractLsb' 0 2 = 0b01#2 ∧
      15 ≤ (List.replicate 5 0x64#8).length + (List.replicate 4 0x48#8).length + 5 + [0xD1#8].length ∧
      15 < (List.replicate 5 0x64#8).length + (List.replicate 4 0x48#8).length + 5 + tailLength [0xD1] ∧
      (0xF3#8).extractLsb' 0 2 = 0b11#2 ∧
      15 ≤ (List.replicate 4 0x64#8).length + (List.replicate 4 0x48#8).length + 6 + [0xD1#8].length ∧
      15 < (List.replicate 4 0x64#8).length + (List.replicate 4 0x48#8).length + 6 + tailLength [0xD1] := by decide

/-- 16 bytes: the shortest excess. -/
theorem witness_LongInstructionIsGeneralProtection :
    let i := Instr.vextractf128 (List.replicate 10 .ds) (.reg 1) 2 1
    i.dstWf = true ∧ i.length = 16 ∧ mode32 (st 0 0) = false ∧
      decode (fetchWindow (withText (st 0 0) (encode i))) = .tooLong ∧ (st 0 0).fault = none ∧
      (st 0 0).mode = .long64 := by decide

/-- 14 prefixes, the most; one byte pattern for each clause, and for each alternative in it. -/
theorem witness_OtherBytesAreOutOfScope :
    (List.replicate 14 LegacyPrefix.es).length ≤ 14 ∧ legacyPrefixOf 0x90#8 = none ∧ forbiddenPrefix 0x90#8 = false ∧
    (List.replicate 11 LegacyPrefix.es).length ≤ 11 ∧ (0xE2#8).extractLsb' 0 5 ≠ 0b00011#5 ∧
    (0x7C#8).extractLsb' 0 2 ≠ 0b01#2 ∧ (0x18#8 : Byte) ≠ 0x19#8 ∧
    (List.replicate 10 LegacyPrefix.es).length ≤ 10 ∧ (0xF3#8).extractLsb' 2 2 = 0b00#2 ∧ (0x7D#8).getLsbD 2 = true ∧
    (0xF2#8).extractLsb' 0 2 ≠ 0b11#2 ∧ (0x7C#8).extractLsb' 0 2 ≠ 0b01#2 ∧
    ((0x39#8 : Byte) ≠ 0x19#8 ∧ (0x39#8 : Byte) ≠ 0x1B#8) := by decide

/-! ## Witnesses: the step -/

/-- `vextractf64x2 [rax]{k1}, ymm2, 0` placed at `rip`. -/
def ready4 : State := withText (st 1 0x2000) [0x62, 0xF3, 0xFD, 0x29, 0x19, 0x10, 0x00]

theorem witness_StepRunsDecodedInstruction :
    ready4.fault = none ∧ ready4.mode = .long64 ∧
      decode (fetchWindow ready4) =
        .instr (.vextractf64x2Ymm [] { aaa := 1, z := false } (.mem (.base 0 .absent)) 2 0) := by decide

/-- One state for each verdict that is no instruction, and the two ways a byte is missing. -/
theorem witness_StepStopsOnOtherVerdicts :
    (st 0 0).fault = none ∧ (st 0 0).mode = .long64 ∧
    decode (fetchWindow (withText (st 0 0) [0xC4, 0xE3, 0x79, 0x19, 0xD1, 0x01])) = .undefinedOpcode ∧
    decode (fetchWindow (withText (st 0 0) (List.replicate 15 0x3E#8))) = .tooLong ∧
    decode (fetchWindow (withText (st 0 0) [0x90])) = .outOfScope ∧
    decode (fetchWindow (withText (st 0 0) [0xC4, 0xE3])) = .truncated := by decide

theorem witness_StepNeverRunsStoredBytes : ∃ t, step ready4 = .next t := exists_next (by decide)

theorem witness_StepAdvancesRip : ∃ t, step ready4 = .next t := witness_StepNeverRunsStoredBytes

theorem witness_StepKeepsCanonicalForm : ready4.wf = true ∧ ∃ t, step ready4 = .next t :=
  ⟨by decide, witness_StepNeverRunsStoredBytes⟩

theorem witness_StepKeepsSystemState : ∃ t, step ready4 = .next t := witness_StepNeverRunsStoredBytes

theorem witness_StepKeepsLaunchPremises : launchPremises ready4 = true ∧ ∃ t, step ready4 = .next t :=
  ⟨by decide, witness_StepNeverRunsStoredBytes⟩

/-- One fault of each of two kinds: #UD leaves CR2, #PF writes it. -/
theorem witness_FaultIsPreciseAndTerminal :
    let u := withText (st 0 0) [0xC4, 0xE3, 0x79, 0x19, 0xD1, 0x01]
    let p := withText refused [0x62, 0xF3, 0xFD, 0x48, 0x1B, 0x10, 0x00]
    u.fault = none ∧ step u = .fault (.raised ud) ∧ p.fault = none ∧ step p = .fault (.raised (pf 6 0x3000)) := by
  simp only [← faults_iff]; decide

theorem witness_OtherModes :
    let i := Instr.vextractf128 (List.replicate 9 .ds) (.reg 1) 2 1
    ({ st 0 0 with mode := .compatibility }).fault = none ∧ i.length ≤ 15 ∧
      step { st 0 0 with mode := .real } = .refused .modeOutOfScope ∧
      exec i { st 0 0 with mode := .compatibility } = .refused .modeOutOfScope ∧
      exec i { st 0 0 with mode := .virtual8086 } = .fault (.raised ud) := by
  simp only [← faults_iff, ← refuses_iff]; decide

/-! ## Witnesses: the instructions -/

/-- Nine prefixes and a VEX form of 15 bytes: ready. -/
theorem witness_Vextractf128RegisterResult :
    Ready (.vextractf128 (List.replicate 9 .ds) (.reg 15) 15 255) (st 0 0) := by unfold Ready; decide

/-- The operand ends with the last canonical byte below the hole. -/
theorem witness_Vextractf128MemoryResult :
    let i := Instr.vextractf128 [.gs] (.mem (.base 0 .absent)) 2 1
    Ready i (st 0 0x7FFFFFFFFFF0) ∧ Storable i (.base 0 .absent) (st 0 0x7FFFFFFFFFF0) := by
  unfold Ready Storable; decide

theorem witness_Vextractf32x4RegisterResult :
    Ready (.vextractf32x4Ymm [] { aaa := 7, z := true } (.reg 31) 31 1) (st 5 0) ∧
      Ready (.vextractf32x4Zmm [] { aaa := 0, z := false } (.reg 0) 0 3) (st 5 0) := by unfold Ready; decide

theorem witness_Vextractf32x4MemoryResult :
    let y := Instr.vextractf32x4Ymm [] { aaa := 1, z := false } (.mem (.base 0 (.disp8 0x7F))) 2 1
    let z := Instr.vextractf32x4Zmm [] { aaa := 1, z := false } (.mem (.base 0 (.disp8 0x7F))) 2 3
    Ready y (st 5 0x2000) ∧ Storable y (.base 0 (.disp8 0x7F)) (st 5 0x2000) ∧ Ready z (st 5 0x2000) ∧
      Storable z (.base 0 (.disp8 0x7F)) (st 5 0x2000) := by unfold Ready Storable; decide

theorem witness_Vextractf64x2RegisterResult :
    Ready (.vextractf64x2Ymm [] { aaa := 7, z := true } (.reg 31) 31 1) (st 5 0) ∧
      Ready (.vextractf64x2Zmm [] { aaa := 0, z := false } (.reg 0) 0 3) (st 5 0) := by unfold Ready; decide

theorem witness_Vextractf64x2MemoryResult :
    let y := Instr.vextractf64x2Ymm [] { aaa := 1, z := false } (.mem (.base 0 (.disp8 0x80))) 2 1
    let z := Instr.vextractf64x2Zmm [] { aaa := 1, z := false } (.mem (.base 0 (.disp8 0x80))) 2 3
    Ready y (st 5 0x2000) ∧ Storable y (.base 0 (.disp8 0x80)) (st 5 0x2000) ∧ Ready z (st 5 0x2000) ∧
      Storable z (.base 0 (.disp8 0x80)) (st 5 0x2000) := by unfold Ready Storable; decide

theorem witness_Vextract256RegisterResult :
    Ready (.vextractf32x8 [] { aaa := 7, z := true } (.reg 31) 31 1) (st 5 0) ∧
      Ready (.vextractf64x4 [] { aaa := 0, z := false } (.reg 0) 0 0) (st 5 0) := by unfold Ready; decide

/-- The operand begins with the first canonical byte above the hole. -/
theorem witness_Vextract256MemoryResult :
    let a := Instr.vextractf32x8 [] { aaa := 1, z := false } (.mem (.base 0 .absent)) 2 1
    let b := Instr.vextractf64x4 [] { aaa := 1, z := false } (.mem (.base 0 .absent)) 2 1
    Ready a (st 5 0xFFFF800000000000) ∧ Storable a (.base 0 .absent) (st 5 0xFFFF800000000000) ∧
      Ready b (st 5 0xFFFF800000000000) ∧ Storable b (.base 0 .absent) (st 5 0xFFFF800000000000) := by
  unfold Ready Storable; decide

/-- K[1] has bits, but none of the four that count. -/
theorem witness_ZeroMaskStoreWritesNothing :
    let i := Instr.vextractf32x4Zmm [] { aaa := 1, z := false } (.mem (.base 0 .absent)) 2 3
    i.destMem = some (.base 0 .absent) ∧ Ready i (st 0xFFFFFFFFFFFFFFF0 0x2000) ∧
      Storable i (.base 0 .absent) (st 0xFFFFFFFFFFFFFFF0 0x2000) ∧ i.mask.aaa ≠ 0 ∧
      ∀ j < i.laneBits / i.elementBits, (readK (st 0xFFFFFFFFFFFFFFF0 0x2000) i.mask.aaa).getLsbD j = false := by
  unfold Ready Storable; decide

/-- A register form that completes. -/
theorem witness_RegisterWriteZeroesUpperBits :
    let i := Instr.vextractf128 [] (.reg 1) 2 1
    i.destReg = some 1 ∧ ∃ t, exec i (st 0 0) = .next t :=
  ⟨rfl, exists_next (by decide)⟩

theorem witness_RegisterFormFrame :
    (Instr.vextractf128 [] (.reg 1) 2 1).destReg = some 1 ∧
      (∃ t, exec (.vextractf128 [] (.reg 1) 2 1) (st 0 0) = .next t) ∧ (0#5 : BitVec 5) ≠ 1#5 :=
  ⟨rfl, exists_next (by decide), by decide⟩

/-- A memory form that completes, an address outside its operand on either side of it, and a byte of an element that is
written and of one that is not. -/
theorem witness_MemoryFormFrame :
    let i := Instr.vextractf64x4 [] { aaa := 1, z := false } (.mem (.base 0 .absent)) 2 1
    i.destMem = some (.base 0 .absent) ∧ (∃ t, exec i (st 7 0x2000) = .next t) ∧
      outside (destAddr i (.base 0 .absent) (st 7 0x2000)) (i.laneBits / 8) 0x1FFF ∧
      outside (destAddr i (.base 0 .absent) (st 7 0x2000)) (i.laneBits / 8) 0x2020 ∧
      23 < i.laneBits / 8 ∧ writesElement i (st 7 0x2000) (8 * 23 / i.elementBits) = true ∧
      writesElement i (st 7 0x2000) (8 * 24 / i.elementBits) = false :=
  ⟨rfl, exists_next (by decide), by unfold outside; decide, by unfold outside; decide, by decide, by decide, by decide⟩

/-- K[1] = 5 and F5 agree on bits 3 to 0; and a form with no writemask. -/
theorem witness_HigherMaskBitsAreIgnored :
    let i := Instr.vextractf32x4Zmm [] { aaa := 1, z := false } (.reg 1) 2 3
    (i.mask.aaa ≠ 0 → ∀ j < i.laneBits / i.elementBits,
      (readK { st 5 0 with k := (st 0xF5 0).k } i.mask.aaa).getLsbD j = (readK (st 5 0) i.mask.aaa).getLsbD j) ∧
    (Instr.vextractf128 [] (.reg 1) 2 1).mask.aaa = 0 := by
  decide

/-- A store that completes, one that faults and one that is refused. -/
theorem witness_NoDataMemoryIsRead :
    let i := Instr.vextractf128 [] (.mem (.base 0 .absent)) 2 1
    (∃ t, exec i (st 0 0x2000) = .next t) ∧ exec i (st 0 0x7FFFFFFFFFF1) = .fault (.raised gp0) ∧
      exec i { st 0 0x2000 with rip := 0x800000000000 } = .refused .placement :=
  ⟨exists_next (by decide), faults_iff.1 (by decide), refuses_iff.1 (by decide)⟩

/-- A register form and a memory form, and a source that differs from bit 256 up; both forms complete. -/
theorem witness_UpperSourceBitsAreIgnored :
    let i := Instr.vextractf64x2Ymm [] { aaa := 0, z := false } (.reg 2) 2 1
    let j := Instr.vextractf128 [] (.mem (.base 0 .absent)) 2 1
    i.row = 4 ∧ i.destReg = some i.srcReg ∧ j.row = 1 ∧ j.destReg ≠ some j.srcReg ∧
      (BitVec.allOnes 256 ++ Z.extractLsb' 0 256 : Zmm).extractLsb' 0 256 =
        (readZmm (st 0 0) i.srcReg).extractLsb' 0 256 ∧
      (∃ t, exec i (st 0 0) = .next t) ∧ ∃ t, exec j (st 0 0x2000) = .next t :=
  ⟨rfl, rfl, rfl, by decide, by decide +kernel, exists_next (by decide), exists_next (by decide)⟩

/-- Two bits read in row 3, one in row 7. -/
theorem witness_IgnoredImmediateBits :
    (Instr.vextractf32x4Zmm [] { aaa := 0, z := false } (.reg 1) 2 3).row = 3 ∧
      (0xFF#8).extractLsb' 0 2 = (3#8).extractLsb' 0 2 ∧
      (Instr.vextractf64x4 [] { aaa := 0, z := false } (.reg 1) 2 0).row = 7 ∧
      (0xFE#8).extractLsb' 0 1 = (0#8).extractLsb' 0 1 := by decide

theorem witness_UnmaskedFormsAgree :
    (st 0 0).features = { avx := true, avx512f := true, avx512vl := true, avx512dq := true } ∧
      (∃ t, exec (.vextractf128 [] (.reg 1) 2 1) (st 0 0) = .next t) ∧
      ∃ u, exec (.vextractf32x4Ymm [] { aaa := 0, z := false } (.reg ((1#4).setWidth 5)) ((2#4).setWidth 5) 1)
        (st 0 0) = .next u :=
  ⟨rfl, exists_next (by decide), exists_next (by decide)⟩

/-! ## Witnesses: faults, refusals, addresses -/

theorem witness_MissingFeatureRaisesInvalidOpcode :
    let i := Instr.vextractf128 (List.replicate 9 .ds) (.reg 1) 2 1
    mode32 (st 0 0) = false ∧ i.length ≤ 15 ∧
      i.flagsSet { avx := false, avx512f := true, avx512vl := true, avx512dq := true } = false := by decide

/-- Each way of having the state off, and CR0.TS. -/
theorem witness_DisabledStateFaults :
    let i := Instr.vextractf32x8 [] { aaa := 1, z := true } (.reg 1) 2 1
    (st 0 0).mode = .long64 ∧ i.length ≤ 15 ∧ (0x20#64).getLsbD 18 = false ∧ (0xE5#64).extractLsb' 1 2 ≠ 0b11#2 ∧
      i.evex = true ∧ (0xC7#64).extractLsb' 5 3 ≠ 0b111#3 ∧ (st 0 0).cr4.getLsbD 18 = true ∧
      (st 0 0).xcr0.extractLsb' 1 2 = 0b11#2 ∧ (st 0 0).xcr0.extractLsb' 5 3 = 0b111#3 ∧
      i.flagsSet (st 0 0).features = true ∧ i.maskLegal = true ∧
      ({ st 0 0 with cr0 := 8 }).cr0.getLsbD 3 = true := by decide

theorem witness_IllegalZeroingRaisesInvalidOpcode :
    let i := Instr.vextractf32x8 [] { aaa := 0, z := true } (.reg 1) 2 1
    let m := Instr.vextractf32x8 [] { aaa := 1, z := true } (.mem (.base 0 .absent)) 2 1
    mode32 (st 0 0) = false ∧ i.length ≤ 15 ∧ i.maskLegal = false ∧ m.length ≤ 15 ∧ m.maskLegal = false := by decide

/-- Only the last byte of the operand is not canonical: bit 47 of its address is not bit 63. -/
theorem witness_NonCanonicalOperandFaults :
    let i := Instr.vextractf128 [] (.mem (.base 0 .absent)) 2 1
    let s := st 0 0x7FFFFFFFFFF1
    i.destMem = some (.base 0 .absent) ∧ Ready i s ∧ 15 < i.laneBits / 8 ∧ s.vaBits - 1 ≤ 47 ∧ 47 < 64 ∧
      (destAddr i (.base 0 .absent) s + BitVec.ofNat 64 15).getLsbD 47 ≠
        (destAddr i (.base 0 .absent) s + BitVec.ofNat 64 15).getLsbD 63 := by unfold Ready; decide

theorem witness_RefusedAccessPageFaults :
    let i := Instr.vextractf64x4 [] { aaa := 1, z := false } (.mem (.base 0 .absent)) 2 0
    i.destMem = some (.base 0 .absent) ∧ Ready i refused ∧
      (∀ b < i.laneBits / 8, canonical refused.vaBits (destAddr i (.base 0 .absent) refused + BitVec.ofNat 64 b) = true) ∧
      accessAnswer refused (destAddr i (.base 0 .absent) refused) (i.laneBits / 8) ≠ .ok := by unfold Ready; decide

/-- Each fault a register form can raise. -/
theorem witness_RegisterFormHasNoMemoryFault :
    let i := Instr.vextractf128 [] (.reg 1) 2 1
    i.destReg = some 1 ∧ exec i { st 0 0 with cr4 := 0 } = .fault (.raised ud) ∧
      exec i { st 0 0 with cr0 := 8 } = .fault (.raised nm) ∧
      exec (.vextractf128 (List.replicate 10 .ds) (.reg 1) 2 1) (st 0 0) = .fault (.raised gp0) := by
  simp only [← faults_iff]; decide

/-- The two faults that only a memory form raises, #SS(0) and #PF. -/
theorem witness_FaultListIsClosed :
    exec (.vextractf128 [] (.mem (.sib 4 4 0 (.disp8 8))) 15 1) (gprs [(4, 0x800000000000)]) = .fault (.raised ss0) ∧
      exec (.vextractf64x4 [] { aaa := 0, z := false } (.mem (.base 0 .absent)) 2 0) refused =
        .fault (.raised (pf 6 0x3000)) := by
  simp only [← faults_iff]; decide

/-- `rip + len` wraps to 0; it leaves the canonical range; `rip` is outside it. -/
theorem witness_RefusalsOfMeanings :
    let i := Instr.vextractf128 [] (.reg 1) 2 1
    osVecEnabled i.evex (st 0 0) = true ∧ i.flagsSet (st 0 0).features = true ∧ i.maskLegal = true ∧ i.length ≤ 15 ∧
      placed i.length { st 0 0 with rip := 0xFFFFFFFFFFFFFFFA } = false ∧
      placed i.length { st 0 0 with rip := 0xFFFFFFFFFFFFFFF9 } = true ∧
      placed i.length { st 0 0 with rip := 0x7FFFFFFFFFFA } = false ∧
      placed i.length { st 0 0 with rip := 0x800000000000 } = false := by decide

/-- The number 12 is an index although its three low bits are 100b; 4 is none. -/
theorem witness_EffectiveAddressForms :
    LegacyPrefix.addrSize ∉ [LegacyPrefix.fs] ∧ (12#4 : BitVec 4) ≠ 4#4 := by decide

/-- The two addresses at the hole are canonical, their neighbours in it are not (20_memory.md R225), for 48 bits. -/
theorem witness_CanonicalAddressBits :
    canonical 48 0x00007FFFFFFFFFFF = true ∧ canonical 48 0xFFFF800000000000 = true ∧
      canonical 48 0x0000800000000000 = false ∧ canonical 48 0xFFFF7FFFFFFFFFFF = false := by decide

/-- States whose registers agree in their low halves only. -/
theorem witness_AddressSizePrefix :
    LegacyPrefix.addrSize ∈ [LegacyPrefix.addrSize] ∧
      (∀ r, (readGpr (gprs [(0, 0x100002000)]) r).setWidth 32 = (readGpr (gprs [(0, 0x2000)]) r).setWidth 32) ∧
      ({ gprs [] with rip := 0x100001000 }).rip.setWidth 32 = (gprs []).rip.setWidth 32 := by decide

theorem witness_SegmentBaseOfLastPrefix :
    (∀ q ∈ [LegacyPrefix.addrSize], q = .addrSize) ∧ LegacyPrefix.ss ≠ .fs ∧ LegacyPrefix.ss ≠ .gs ∧
      LegacyPrefix.ss ≠ .addrSize := by decide

/-! ## Witnesses: selection and masking, at the last bit, element and byte of each width -/

theorem witness_SelectOneOfFourLanes : (127 : Nat) < 128 := by decide

theorem witness_SelectOneOfTwoLanes : (255 : Nat) < 256 := by decide

theorem witness_MaskedResultByElement :
    3 < 128 / 32 ∧ 1 < 128 / 64 ∧ 7 < 256 / 32 ∧ 3 < 256 / 64 ∧ 128 ≤ 511 ∧ 256 ≤ 511 := by decide

theorem witness_MaskedStoreByElement :
    3 < 128 / 32 ∧ 7 < 256 / 32 ∧ 3 < 32 / 8 ∧ 7 < 64 / 8 ∧ outside 0x2000 16 0x1FFF ∧ outside 0x2000 16 0x2010 := by
  unfold outside; decide

theorem witness_StoreIsLittleEndian : (32 : Nat) ≤ 2 ^ 64 ∧ 31 < 32 := by decide

end Sys2Proof.Tests
end

section
/-! The result of the register forms: the destination of a completed instruction, bit by bit (10_state.md R103,
40_vextractf.md R403). -/

namespace Sys2Proof.Machine

theorem elementBits_pos (i : Instr) : 0 < i.elementBits := by
  rcases elementBits_cases i with h | h <;> omega

theorem laneBits_le (i : Instr) : i.laneBits ≤ 512 := by
  rcases laneBits_cases i with h | h <;> omega

/-- A lane is a whole number of elements. -/
theorem laneBits_div_mul_elementBits (i : Instr) : i.laneBits / i.elementBits * i.elementBits = i.laneBits := by
  rcases laneBits_cases i with hl | hl <;> rcases elementBits_cases i with he | he <;> rw [hl, he]

theorem getLsbD_lane {i : Instr} (s : State) {b : Nat} (hb : b < i.laneBits) :
    (lane i s).getLsbD b = (readZmm s i.srcReg).getLsbD (i.laneStart + b) := by
  simp [lane, hb]

theorem writesElement_iff (i : Instr) (s : State) (j : Nat) :
    writesElement i s j = true ↔ i.mask.aaa = 0 ∨ (readK s i.mask.aaa).getLsbD j = true := by
  simp [writesElement]

/-- What `resultBit` says of a bit, in terms of the elements that `i` writes and of its lane. -/
theorem resultBit_eq {i : Instr} (s : State) (d : BitVec 5) {b : Nat} (hb : b < i.laneBits) :
    resultBit s i.mask i.elementBits i.laneStart i.srcReg d b =
      if writesElement i s (b / i.elementBits) = true then (lane i s).getLsbD b
      else !i.mask.z && (readZmm s d).getLsbD b := by
  simp only [resultBit, ← writesElement_iff, getLsbD_lane s hb]
  cases i.mask.z <;> rfl

/-- The destination of a register form that completes holds the masked result. -/
theorem readZmm_of_exec_next {i : Instr} {d : BitVec 5} {s t : State} (hd : i.destReg = some d)
    (h : exec i s = .next t) :
    readZmm t d = maskedRegResult (readZmm s d) (lane i s) i.elementBits (writesElement i s) i.mask.z := by
  rw [exec_reg s hd] at h
  obtain ⟨-, -, -, -, -, -, -, ht⟩ := checked_next h
  cases ht
  rw [readZmm_advance, readZmm_writeZmm_same]

/-- Every bit of the destination of a register form that completes. -/
theorem getLsbD_readZmm_of_exec_next {i : Instr} {d : BitVec 5} {s t : State} (hd : i.destReg = some d)
    (h : exec i s = .next t) (b : Nat) :
    (readZmm t d).getLsbD b =
      (decide (b < i.laneBits) && resultBit s i.mask i.elementBits i.laneStart i.srcReg d b) := by
  rw [readZmm_of_exec_next hd h, getLsbD_maskedRegResult _ _ _ _ _ _ (elementBits_pos i)
    (laneBits_div_mul_elementBits i) (laneBits_le i)]
  by_cases hb : b < i.laneBits
  · rw [resultBit_eq s d hb]
  · simp only [hb, decide_false, Bool.false_and]

/-- Settles O39: the result below the lane width and the zeros above it are the two cases of one equation for every bit
of the destination. -/
theorem registerWriteZeroesUpperBits : Obligations.RegisterWriteZeroesUpperBits := by
  intro i d s t hd h
  refine ⟨fun b hb => ?_, fun b hb => ?_⟩
  · simp [getLsbD_readZmm_of_exec_next hd h, hb]
  · simp [getLsbD_readZmm_of_exec_next hd h, Nat.not_lt.2 hb]

end Sys2Proof.Machine
end

section
/-! Selection and masking: the lanes the immediate selects (40_vextractf.md R401, R402) and the masked register result,
element by element (R403). -/

namespace Sys2Proof.Machine

theorem getLsbD_select128 {vl : Nat} (src : BitVec vl) (imm : Byte) {b : Nat} (hb : b < 128) :
    (select128 src imm).getLsbD b = src.getLsbD (128 * laneIndex vl imm + b) := by
  simp [select128, hb]

theorem getLsbD_select256 (src : BitVec 512) (imm : Byte) {b : Nat} (hb : b < 256) :
    (select256 src imm).getLsbD b = src.getLsbD (256 * (imm.extractLsb' 0 1).toNat + b) := by
  simp [select256, hb]

theorem selected_iff (s : State) (aaa : BitVec 3) (j : Nat) :
    selected s aaa j = true ↔ aaa = 0 ∨ (readK s aaa).getLsbD j = true := by
  simp [selected]

/-- One element of the masked result: bit `b` of element `j` is bit `j * E + b` of the register, whose element number is
`j` again. -/
theorem extractLsb'_maskedRegResult {W E j : Nat} (old : Zmm) (tmp : BitVec W) (sel : Nat → Bool) (z : Bool)
    (hE : 0 < E) (hdvd : W / E * E = W) (hW : W ≤ 512) (hj : j < W / E) :
    (maskedRegResult old tmp E sel z).extractLsb' (j * E) E =
      if sel j = true then tmp.extractLsb' (j * E) E else if z = false then old.extractLsb' (j * E) E else 0#E := by
  apply BitVec.eq_of_getLsbD_eq
  intro b hb
  have helem : (j * E + b) / E = j := by
    rw [Nat.mul_comm, Nat.mul_add_div hE, Nat.div_eq_of_lt hb, Nat.add_zero]
  have hbelow : j * E + b < W := by
    calc j * E + b < j * E + E := by omega
      _ = (j + 1) * E := (Nat.succ_mul j E).symm
      _ ≤ W / E * E := Nat.mul_le_mul_right E hj
      _ = W := hdvd
  rw [BitVec.getLsbD_extractLsb', getLsbD_maskedRegResult _ _ _ _ _ _ hE hdvd hW, helem]
  cases sel j <;> cases z <;> simp [hb, hbelow]

theorem getLsbD_maskedRegResult_of_ge {W E b : Nat} (old : Zmm) (tmp : BitVec W) (sel : Nat → Bool) (z : Bool)
    (hE : 0 < E) (hdvd : W / E * E = W) (hW : W ≤ 512) (hb : W ≤ b) :
    (maskedRegResult old tmp E sel z).getLsbD b = false := by
  rw [getLsbD_maskedRegResult _ _ _ _ _ _ hE hdvd hW, decide_eq_false (Nat.not_lt.2 hb), Bool.false_and]

/-- Zeroing never reads the old register value. -/
theorem maskedRegResult_zeroing {W : Nat} (old old' : Zmm) (tmp : BitVec W) (E : Nat) (sel : Nat → Bool) :
    maskedRegResult old tmp E sel true = maskedRegResult old' tmp E sel true := rfl

/-- Settles O25: the lane number is one bit of the immediate for a 256-bit source, two bits for a 512-bit one. -/
theorem selectOneOfFourLanes : Obligations.SelectOneOfFourLanes := by
  have h256 (imm : Byte) : laneIndex 256 imm = (imm.extractLsb' 0 1).toNat := if_pos rfl
  have h512 (imm : Byte) : laneIndex 512 imm = (imm.extractLsb' 0 2).toNat := if_neg (by decide)
  refine ⟨fun src imm b hb => ?_, fun src imm b hb => ?_⟩
  · rw [getLsbD_select128 src imm hb, h256]
  · rw [getLsbD_select128 src imm hb, h512]

/-- Settles O26: bit `b` of the lane is bit `256 * imm8[0] + b` of the source. -/
theorem selectOneOfTwoLanes : Obligations.SelectOneOfTwoLanes :=
  fun src imm _ hb => getLsbD_select256 src imm hb

/-- Settles O27: the elements by the equation for one element, the bits from `W` up by the equation for every bit; the
old value drops out without a writemask because every element is selected, and under zeroing by definition. -/
theorem maskedResultByElement : Obligations.MaskedResultByElement := by
  intro s W E tmp old aaa z hW hE
  have hpos : 0 < E := by omega
  have hle : W ≤ 512 := by omega
  have hdvd : W / E * E = W := by
    rcases hW with rfl | rfl <;> rcases hE with rfl | rfl <;> rfl
  refine ⟨fun j hj => ?_, fun b hb => ?_, fun h old' => ?_⟩
  · simp only [extractLsb'_maskedRegResult old tmp _ z hpos hdvd hle hj, selected_iff]
  · exact getLsbD_maskedRegResult_of_ge old tmp _ z hpos hdvd hle hb
  · rcases h with rfl | rfl
    · simp only [selected_none, maskedRegResult_all _ tmp E z hpos hdvd hle]
    · exact maskedRegResult_zeroing old' old tmp E _

end Sys2Proof.Machine
end

section
/-! Decoding whole encodings. After any legal bytes in front, what VEX bytes and EVEX bytes decode to is one equation
each, over all the bytes given: the 15-byte window of the decoder (30_encoding.md R300, R332) shows only as a bound on
the length. -/

namespace Sys2Proof

/-! ## The operands in the window -/

/-- The operands end in a window of `n` bytes and are read as from all the bytes, or they are not read. -/
theorem readOperands_take {w : Nat} (regNo : BitVec 3 → BitVec w) (x b : Bool) (bs : List Byte) (n : Nat) :
    readOperands regNo x b (bs.take n) = if tailLength bs ≤ n then readOperands regNo x b bs else none := by
  have htake := isSome_readOperands_take regNo x b bs n
  have hall := isSome_readOperands regNo x b bs
  cases hr : readOperands regNo x b (bs.take n) with
  | some v =>
    obtain ⟨reg, dst, imm⟩ := v
    obtain ⟨-, -, u, r, -, hu, hread⟩ := readOperands_inv hr
    have hbs : bs = u ++ (r ++ bs.drop n) := by rw [← List.append_assoc, ← hu, List.take_append_drop]
    have hle : tailLength bs ≤ n := by
      rw [hr, Option.isSome_some, eq_comm, decide_eq_true_eq] at htake
      omega
    rw [if_pos hle, hbs, hread]
  | none =>
    rw [hr, Option.isSome_none, eq_comm, decide_eq_false_iff_not] at htake
    split
    · have hnone : ¬ tailLength bs ≤ bs.length := by omega
      rw [decide_eq_false hnone] at hall
      exact (Option.isSome_eq_false_iff.1 hall |> Option.isNone_iff_eq_none.1).symm
    · rfl

/-- A reader that goes on to the operands after `c` bytes, in the 15-byte window: over 15 bytes if the operands end past
it, else #UD if the bytes before them say so, else what follows from the operands. -/
theorem elim_readOperands_take {w : Nat} (go : BitVec 3 × Dst w × Byte → Decoded) (regNo : BitVec 3 → BitVec w)
    (x b : Bool) (bs : List Byte) {c : Nat} (hc : c ≤ 15) (bad : Bool) :
    ((readOperands regNo x b (bs.take (15 - c))).elim (ranOut (decide (15 ≤ c + bs.length)) bad) fun o =>
      if bad then .undefinedOpcode else go o) =
      if 15 ≤ c + bs.length ∧ 15 < c + tailLength bs then .tooLong
      else if bad then .undefinedOpcode
      else (readOperands regNo x b bs).elim .truncated go := by
  have hsome := isSome_readOperands regNo x b bs
  rw [readOperands_take]
  by_cases hwin : tailLength bs ≤ 15 - c
  · rw [if_pos hwin, if_neg (by omega)]
    cases hr : readOperands regNo x b bs with
    | some o => rfl
    | none =>
      rw [hr, Option.isSome_none, eq_comm, decide_eq_false_iff_not] at hsome
      rw [Option.elim_none, Option.elim_none, decide_eq_false (by omega)]
      rfl
  · rw [if_neg hwin, Option.elim_none]
    by_cases hfull : 15 ≤ c + bs.length
    · rw [if_pos ⟨hfull, by omega⟩, decide_eq_true hfull]
      rfl
    · rw [if_neg (by omega), decide_eq_false hfull]
      rw [decide_eq_false (by omega), Option.isSome_eq_false_iff, Option.isNone_iff_eq_none] at hsome
      rw [hsome]
      rfl

/-- The register-number function matters in the register form only, and an extension bit that the memory form does not
use not at all (log 14). -/
theorem readOperands_congr {w : Nat} {regNo regNo' : BitVec 3 → BitVec w} {x x' b b' : Bool} {bs : List Byte}
    (hreg : (bs.getD 0 0).extractLsb' 6 2 = 0b11#2 → regNo = regNo')
    (hmem : (bs.getD 0 0).extractLsb' 6 2 ≠ 0b11#2 →
      (x = x' ∨ (bs.getD 0 0).extractLsb' 0 3 ≠ 0b100#3) ∧ (b = b' ∨ noBase bs)) :
    readOperands regNo x b bs = readOperands regNo' x' b' bs := by
  cases bs with
  | nil => rfl
  | cons modrm bs =>
    have hdst : takeDst regNo x b (modrm.extractLsb' 6 2) (modrm.extractLsb' 0 3) bs =
        takeDst regNo' x' b' (modrm.extractLsb' 6 2) (modrm.extractLsb' 0 3) bs := by
      unfold takeDst
      split
      · next h => rw [hreg h]
      · next h =>
        obtain ⟨hx, hb⟩ := hmem h
        exact congrArg _ (takeMem_ignores hx hb)
    simp only [readOperands, hdst]

/-! ## VEX -/

/-- Map, pp and opcode of VEXTRACTF128 (30_encoding.md R302, R319). -/
abbrev vexNamed (b1 b2 op : Byte) : Prop :=
  b1.extractLsb' 0 5 = 0b00011#5 ∧ b2.extractLsb' 0 2 = 0b01#2 ∧ op = 0x19#8

/-- VEX.L = 0, vvvv not 1111b or W = 1 (30_encoding.md R340, R341). -/
def vexBad (b2 : Byte) : Bool := !b2.getLsbD 2 || b2.extractLsb' 3 4 != 0b1111#4 || b2.getLsbD 7

/-- The operands of a VEX encoding, with the extension bits of VEX byte 1. -/
def vexOperands (b1 : Byte) : List Byte → Option (BitVec 3 × Dst 4 × Byte) :=
  readOperands (fun rm => BitVec.ofBool (!b1.getLsbD 5) ++ rm) (!b1.getLsbD 6) (!b1.getLsbD 5)

/-- What VEX bytes decode to after `k` bytes in front, of which `pre` count. -/
def vexDecoded (k : Nat) (pre : List LegacyPrefix) (b1 b2 op : Byte) (bytes : List Byte) : Decoded :=
  if 15 < k + 4 then .tooLong
  else if vexNamed b1 b2 op then
    if 15 ≤ k + 4 + bytes.length ∧ 15 < k + 4 + tailLength bytes then .tooLong
    else if vexBad b2 then .undefinedOpcode
    else (vexOperands b1 bytes).elim .truncated fun o =>
      .instr (.vextractf128 pre o.2.1 (BitVec.ofBool (!b1.getLsbD 7) ++ o.1) o.2.2)
  else .outOfScope

theorem decodeVex_cons (full : Bool) (pre : List LegacyPrefix) (b1 b2 op : Byte) (bs : List Byte) :
    decodeVex full pre (b1 :: b2 :: op :: bs) =
      if vexNamed b1 b2 op then
        (vexOperands b1 bs).elim (ranOut full (vexBad b2)) fun o =>
          if vexBad b2 then .undefinedOpcode
          else .instr (.vextractf128 pre o.2.1 (BitVec.ofBool (!b1.getLsbD 7) ++ o.1) o.2.2)
      else .outOfScope := by
  by_cases h : vexNamed b1 b2 op
  · cases ho : vexOperands b1 bs with
    | none => simp only [decodeVex, if_pos h]; rw [show readOperands _ _ _ bs = none from ho]; rfl
    | some o => simp only [decodeVex, if_pos h]; rw [show readOperands _ _ _ bs = some o from ho]; rfl
  · simp only [decodeVex, if_neg h]

theorem decodeVex_short (full : Bool) (pre : List LegacyPrefix) {bs : List Byte} (h : bs.length < 3) :
    decodeVex full pre bs = ranOut full false := by
  match bs, h with
  | [], _ => rfl
  | [_], _ => rfl
  | [_, _], _ => rfl

theorem decodeVex_window {k : Nat} (hk : k ≤ 14) (pre : List LegacyPrefix) (b1 b2 op : Byte) (bytes : List Byte) :
    decodeVex (decide (15 ≤ k + 4 + bytes.length)) pre ((b1 :: b2 :: op :: bytes).take (14 - k)) =
      vexDecoded k pre b1 b2 op bytes := by
  unfold vexDecoded
  by_cases hlong : 15 < k + 4
  · rw [if_pos hlong, decodeVex_short _ _ (by simp; omega), decide_eq_true (by omega)]
    rfl
  · rw [if_neg hlong, show 14 - k = 15 - (k + 4) + 3 by omega]
    simp only [List.take_succ_cons, decodeVex_cons]
    exact if_congr Iff.rfl (elim_readOperands_take _ _ _ _ _ (by omega) _) rfl

/-- What VEX bytes decode to after legal bytes in front (30_encoding.md R332 step 2). -/
theorem decode_vex (pre : List LegacyPrefix) (b1 b2 op : Byte) (bytes : List Byte) :
    decode (pre.map LegacyPrefix.byte ++ 0xC4#8 :: b1 :: b2 :: op :: bytes) =
      vexDecoded pre.length pre b1 b2 op bytes := by
  rw [decode_after_prefixes pre _ _ legacyPrefixOf_vexByte forbiddenPrefix_vexByte]
  by_cases h : 15 ≤ pre.length
  · rw [if_pos h, vexDecoded, if_pos (by omega)]
  · have hlen : pre.length + 1 + (b1 :: b2 :: op :: bytes).length = pre.length + 4 + bytes.length := by
      simp only [List.length_cons]; omega
    rw [if_neg h, hlen, ← decodeVex_window (by omega)]
    rfl

/-! ## EVEX -/

/-- Map, pp and opcode of the EVEX encodings (30_encoding.md R305, R319). -/
abbrev evexNamed (p0 p1 op : Byte) : Prop :=
  p0.extractLsb' 0 2 = 0b11#2 ∧ p1.extractLsb' 0 2 = 0b01#2 ∧ (op = 0x19#8 ∨ op = 0x1B#8)

/-- P0[3:2] not 00b or U = 0 (30_encoding.md R341). -/
def evexReserved (p0 p1 : Byte) : Bool := p0.extractLsb' 2 2 != 0b00#2 || !p1.getLsbD 2

/-- The writemask and the masking kind of P2. -/
def evexMask (p2 : Byte) : WriteMask := { aaa := p2.extractLsb' 0 3, z := p2.getLsbD 7 }

/-- A reserved bit wrong, vvvv not 1111b, V' stored as 0, b = 1 or illegal zeroing (30_encoding.md R340, R341). -/
def evexBad (p0 p1 p2 : Byte) (bytes : List Byte) : Bool :=
  evexReserved p0 p1 || p1.extractLsb' 3 4 != 0b1111#4 || !p2.getLsbD 3 || p2.getLsbD 4 ||
    zeroingBad (evexMask p2) bytes

/-- The operands of an EVEX encoding, with the extension bits of P0. -/
def evexOperands (p0 : Byte) : List Byte → Option (BitVec 3 × Dst 5 × Byte) :=
  readOperands (fun rm => BitVec.ofBool (!p0.getLsbD 6) ++ BitVec.ofBool (!p0.getLsbD 5) ++ rm) (!p0.getLsbD 6)
    (!p0.getLsbD 5)

/-- What EVEX bytes decode to after `k` bytes in front, of which `pre` count. -/
def evexDecoded (k : Nat) (pre : List LegacyPrefix) (p0 p1 p2 op : Byte) (bytes : List Byte) : Decoded :=
  if 15 < k + 5 then .tooLong
  else if evexNamed p0 p1 op then
    if 15 ≤ k + 5 + bytes.length ∧ 15 < k + 5 + tailLength bytes then .tooLong
    else (evexRow op (p1.getLsbD 7) (p2.extractLsb' 5 2)).elim .undefinedOpcode fun mk =>
      if evexBad p0 p1 p2 bytes then .undefinedOpcode
      else (evexOperands p0 bytes).elim .truncated fun o =>
        .instr
          (mk pre (evexMask p2) o.2.1 (BitVec.ofBool (!p0.getLsbD 4) ++ BitVec.ofBool (!p0.getLsbD 7) ++ o.1) o.2.2)
  else if evexReserved p0 p1 then .undefinedOpcode
  else .outOfScope

theorem decodeEvex_cons (full : Bool) (pre : List LegacyPrefix) (p0 p1 p2 op : Byte) (bs : List Byte) :
    decodeEvex full pre (p0 :: p1 :: p2 :: op :: bs) =
      if evexNamed p0 p1 op then
        (evexRow op (p1.getLsbD 7) (p2.extractLsb' 5 2)).elim
          ((evexOperands p0 bs).elim (ranOut full true) fun _ => .undefinedOpcode) fun mk =>
          (evexOperands p0 bs).elim (ranOut full (evexBad p0 p1 p2 bs)) fun o =>
            if evexBad p0 p1 p2 bs then .undefinedOpcode
            else .instr
              (mk pre (evexMask p2) o.2.1 (BitVec.ofBool (!p0.getLsbD 4) ++ BitVec.ofBool (!p0.getLsbD 7) ++ o.1) o.2.2)
      else if evexReserved p0 p1 then .undefinedOpcode
      else .outOfScope := by
  by_cases h : evexNamed p0 p1 op
  · rw [if_pos h]
    simp only [decodeEvex, if_pos h]
    cases hrow : evexRow op (p1.getLsbD 7) (p2.extractLsb' 5 2) <;> cases ho : evexOperands p0 bs <;>
      rw [show readOperands _ _ _ bs = _ from ho] <;> rfl
  · simp only [decodeEvex, if_neg h]
    rfl

theorem decodeEvex_short (full : Bool) (pre : List LegacyPrefix) {bs : List Byte} (h : bs.length < 4) :
    decodeEvex full pre bs = ranOut full false := by
  match bs, h with
  | [], _ => rfl
  | [_], _ => rfl
  | [_, _], _ => rfl
  | [_, _, _], _ => rfl

/-- The zeroing rule reads ModRM alone, so a window that holds it is enough. -/
theorem evexBad_take (p0 p1 p2 : Byte) (bytes : List Byte) {n : Nat} (hn : 0 < n) :
    evexBad p0 p1 p2 (bytes.take n) = evexBad p0 p1 p2 bytes := by
  obtain ⟨n, rfl⟩ := Nat.exists_eq_succ_of_ne_zero hn.ne'
  cases bytes <;> rfl

theorem decodeEvex_window {k : Nat} (hk : k ≤ 14) (pre : List LegacyPrefix) (p0 p1 p2 op : Byte) (bytes : List Byte) :
    decodeEvex (decide (15 ≤ k + 5 + bytes.length)) pre ((p0 :: p1 :: p2 :: op :: bytes).take (14 - k)) =
      evexDecoded k pre p0 p1 p2 op bytes := by
  unfold evexDecoded
  by_cases hlong : 15 < k + 5
  · rw [if_pos hlong, decodeEvex_short _ _ (by simp; omega), decide_eq_true (by omega)]
    rfl
  · rw [if_neg hlong, show 14 - k = 15 - (k + 5) + 4 by omega]
    simp only [List.take_succ_cons, decodeEvex_cons]
    refine if_congr Iff.rfl ?_ rfl
    cases evexRow op (p1.getLsbD 7) (p2.extractLsb' 5 2) with
    | none =>
      exact elim_readOperands_take (fun _ => .truncated) _ _ _ _ (by omega) true
    | some mk =>
      simp only [Option.elim_some]
      refine (elim_readOperands_take _ _ _ _ _ (by omega) _).trans ?_
      by_cases hwin : 15 = k + 5
      · have := two_le_tailLength bytes
        rw [if_pos (by omega), if_pos (by omega)]
      · rw [evexBad_take _ _ _ _ (by omega)]
        rfl

/-- What EVEX bytes decode to after legal bytes in front (30_encoding.md R332 step 3). -/
theorem decode_evex (pre : List LegacyPrefix) (p0 p1 p2 op : Byte) (bytes : List Byte) :
    decode (pre.map LegacyPrefix.byte ++ 0x62#8 :: p0 :: p1 :: p2 :: op :: bytes) =
      evexDecoded pre.length pre p0 p1 p2 op bytes := by
  rw [decode_after_prefixes pre _ _ legacyPrefixOf_evexByte forbiddenPrefix_evexByte]
  by_cases h : 15 ≤ pre.length
  · rw [if_pos h, evexDecoded, if_pos (by omega)]
  · have hlen : pre.length + 1 + (p0 :: p1 :: p2 :: op :: bytes).length = pre.length + 5 + bytes.length := by
      simp only [List.length_cons]; omega
    rw [if_neg h, hlen, ← decodeEvex_window (by omega)]
    rfl

end Sys2Proof
end

section
/-! Decoding and encoding: when bytes decode to an instruction, which one it is, and that encoding an instruction and
decoding it gives it back (30_encoding.md sections 1 to 6). -/

namespace Sys2Proof

/-! ## The rows -/

/-- Opcode, W and L'L of an EVEX row (30_encoding.md R330). -/
def evexFields : Nat → Option (Byte × Bool × BitVec 2)
  | 2 => some (0x19#8, false, 0b01#2)
  | 3 => some (0x19#8, false, 0b10#2)
  | 4 => some (0x19#8, true, 0b01#2)
  | 5 => some (0x19#8, true, 0b10#2)
  | 6 => some (0x1B#8, false, 0b10#2)
  | 7 => some (0x1B#8, true, 0b10#2)
  | _ => none

/-- The six rows of the EVEX opcode map. -/
theorem evexRow_cases {op : Byte} {w : Bool} {ll : BitVec 2}
    {mk : List LegacyPrefix → WriteMask → Dst 5 → BitVec 5 → Byte → Instr} (h : evexRow op w ll = some mk) :
    (op = 0x19#8 ∧ w = false ∧ ll = 0b01#2 ∧ mk = .vextractf32x4Ymm) ∨
    (op = 0x19#8 ∧ w = false ∧ ll = 0b10#2 ∧ mk = .vextractf32x4Zmm) ∨
    (op = 0x19#8 ∧ w = true ∧ ll = 0b01#2 ∧ mk = .vextractf64x2Ymm) ∨
    (op = 0x19#8 ∧ w = true ∧ ll = 0b10#2 ∧ mk = .vextractf64x2Zmm) ∨
    (op = 0x1B#8 ∧ w = false ∧ ll = 0b10#2 ∧ mk = .vextractf32x8) ∨
    (op = 0x1B#8 ∧ w = true ∧ ll = 0b10#2 ∧ mk = .vextractf64x4) := by
  unfold evexRow at h
  split at h
  · next hop =>
    split at h
    · next hll => cases h; cases w <;> simp [hop, hll]
    · split at h
      · next hll => cases h; cases w <;> simp [hop, hll]
      · cases h
  · split at h
    · next hop =>
      split at h
      · next hll => cases h; cases w <;> simp [hop, hll]
      · cases h
    · cases h

/-- What the instructions of an EVEX row have in common. -/
structure EvexRow (op : Byte) (w : Bool) (ll : BitVec 2)
    (mk : List LegacyPrefix → WriteMask → Dst 5 → BitVec 5 → Byte → Instr) : Prop where
  opcode : op = 0x19#8 ∨ op = 0x1B#8
  fields : ∀ pre wm dst src imm, evexFields (mk pre wm dst src imm).row = some (op, w, ll)
  pre : ∀ pre wm dst src imm, (mk pre wm dst src imm).pre = pre
  length : ∀ pre wm dst src imm, (mk pre wm dst src imm).length = evexLength pre dst
  dstWf : ∀ pre wm dst src imm, (mk pre wm dst src imm).dstWf = dst.wf
  maskLegal : ∀ pre wm dst src imm, (mk pre wm dst src imm).maskLegal = wm.legal dst
  wf : ∀ pre wm dst src imm, (mk pre wm dst src imm).wf = evexWf pre wm dst
  encode : ∀ pre wm dst src imm, encode (mk pre wm dst src imm) = encodeEvex op w ll pre wm dst src imm

theorem evexRow_some {op : Byte} {w : Bool} {ll : BitVec 2}
    {mk : List LegacyPrefix → WriteMask → Dst 5 → BitVec 5 → Byte → Instr} (h : evexRow op w ll = some mk) :
    EvexRow op w ll mk := by
  rcases evexRow_cases h with h | h | h | h | h | h <;> obtain ⟨rfl, rfl, rfl, rfl⟩ := h <;>
    exact {
      opcode := by decide
      fields := fun _ _ _ _ _ => rfl
      pre := fun _ _ _ _ _ => rfl
      length := fun _ _ _ _ _ => rfl
      dstWf := fun _ _ dst _ _ => by cases dst <;> rfl
      maskLegal := fun _ ⟨_, z⟩ dst _ _ => by cases dst <;> cases z <;> rfl
      wf := fun _ _ _ _ _ => rfl
      encode := fun _ _ _ _ _ => rfl }

/-- An instruction is VEXTRACTF128 or of an EVEX row. -/
theorem Instr.vex_or_evex (i : Instr) :
    (∃ pre dst src imm, i = .vextractf128 pre dst src imm) ∨
    ∃ op w ll mk pre wm dst src imm, evexRow op w ll = some mk ∧ i = mk pre wm dst src imm := by
  cases i with
  | vextractf128 pre dst src imm => exact .inl ⟨pre, dst, src, imm, rfl⟩
  | vextractf32x4Ymm => exact .inr ⟨0x19#8, false, 0b01#2, _, _, _, _, _, _, rfl, rfl⟩
  | vextractf32x4Zmm => exact .inr ⟨0x19#8, false, 0b10#2, _, _, _, _, _, _, rfl, rfl⟩
  | vextractf64x2Ymm => exact .inr ⟨0x19#8, true, 0b01#2, _, _, _, _, _, _, rfl, rfl⟩
  | vextractf64x2Zmm => exact .inr ⟨0x19#8, true, 0b10#2, _, _, _, _, _, _, rfl, rfl⟩
  | vextractf32x8 => exact .inr ⟨0x1B#8, false, 0b10#2, _, _, _, _, _, _, rfl, rfl⟩
  | vextractf64x4 => exact .inr ⟨0x1B#8, true, 0b10#2, _, _, _, _, _, _, rfl, rfl⟩

/-- Well-formedness in three parts: the operand has an encoding, zeroing is legal, the length fits. -/
theorem Instr.wf_eq (i : Instr) : i.wf = (i.dstWf && i.maskLegal && decide (i.length ≤ 15)) := by
  rcases i.vex_or_evex with ⟨pre, dst, src, imm, rfl⟩ | ⟨op, w, ll, mk, pre, wm, dst, src, imm, hrow, rfl⟩
  · have hdst : (Instr.vextractf128 pre dst src imm).dstWf = dst.wf := by cases dst <;> rfl
    have hmask : (Instr.vextractf128 pre dst src imm).maskLegal = true := rfl
    rw [hdst, hmask, Bool.and_true]
    rfl
  · have hmk := evexRow_some hrow
    rw [hmk.wf, hmk.dstWf, hmk.maskLegal, hmk.length]
    rfl

/-! ## Which bytes decode to an instruction -/

/-- The zeroing rule at decode is the rule about the operands that are read (30_encoding.md R341). -/
theorem zeroingBad_of_readOperands {regNo : BitVec 3 → BitVec 5} {x b : Bool} {bytes : List Byte} {reg : BitVec 3}
    {dst : Dst 5} {imm : Byte} (wm : WriteMask) (h : readOperands regNo x b bytes = some (reg, dst, imm)) :
    zeroingBad wm bytes = !wm.legal dst := by
  obtain ⟨-, ⟨modrm, tl, rfl, hmod⟩, -⟩ := readOperands_inv h
  obtain ⟨aaa, z⟩ := wm
  cases dst with
  | reg d =>
    have hmod : modrm.extractLsb' 6 2 = 0b11#2 := hmod.2 ⟨d, rfl⟩
    cases z <;> simp [zeroingBad, WriteMask.legal, hmod, bne]
  | mem m =>
    have hmod : modrm.extractLsb' 6 2 ≠ 0b11#2 := fun e => by simpa using hmod.1 e
    cases z <;> simp [zeroingBad, WriteMask.legal, hmod]

theorem vexDecoded_eq_instr_iff {k : Nat} {pre : List LegacyPrefix} {b1 b2 op : Byte} {bytes : List Byte} {i : Instr} :
    vexDecoded k pre b1 b2 op bytes = .instr i ↔
      k + 4 + tailLength bytes ≤ 15 ∧ vexNamed b1 b2 op ∧ vexBad b2 = false ∧
        ∃ reg dst imm, vexOperands b1 bytes = some (reg, dst, imm) ∧
          i = .vextractf128 pre dst (BitVec.ofBool (!b1.getLsbD 7) ++ reg) imm := by
  have hsome : (vexOperands b1 bytes).isSome = _ := isSome_readOperands _ _ _ bytes
  unfold vexDecoded
  constructor
  · intro h
    split at h; · cases h
    split at h; swap; · cases h
    next hnamed =>
    split at h; · cases h
    next hfit =>
    split at h; · cases h
    next hbad =>
    cases ho : vexOperands b1 bytes with
    | none => rw [ho] at h; cases h
    | some o =>
      rw [ho] at h hsome
      cases h
      rw [Option.isSome_some, eq_comm, decide_eq_true_eq] at hsome
      exact ⟨by omega, hnamed, by simpa using hbad, _, _, _, rfl, rfl⟩
  · rintro ⟨hlen, hnamed, hbad, reg, dst, imm, ho, rfl⟩
    rw [if_neg (by omega), if_pos hnamed, if_neg (by omega), if_neg (by simp [hbad]), ho]
    rfl

theorem evexDecoded_eq_instr_iff {k : Nat} {pre : List LegacyPrefix} {p0 p1 p2 op : Byte} {bytes : List Byte}
    {i : Instr} :
    evexDecoded k pre p0 p1 p2 op bytes = .instr i ↔
      k + 5 + tailLength bytes ≤ 15 ∧ evexNamed p0 p1 op ∧ evexBad p0 p1 p2 bytes = false ∧
        ∃ mk reg dst imm, evexRow op (p1.getLsbD 7) (p2.extractLsb' 5 2) = some mk ∧
          evexOperands p0 bytes = some (reg, dst, imm) ∧
          i = mk pre (evexMask p2) dst (BitVec.ofBool (!p0.getLsbD 4) ++ BitVec.ofBool (!p0.getLsbD 7) ++ reg) imm := by
  have hsome : (evexOperands p0 bytes).isSome = _ := isSome_readOperands _ _ _ bytes
  unfold evexDecoded
  constructor
  · intro h
    split at h; · cases h
    split at h; swap; · split at h <;> cases h
    next hnamed =>
    split at h; · cases h
    next hfit =>
    cases hrow : evexRow op (p1.getLsbD 7) (p2.extractLsb' 5 2) with
    | none => rw [hrow] at h; cases h
    | some mk =>
      rw [hrow, Option.elim_some] at h
      split at h; · cases h
      next hbad =>
      cases ho : evexOperands p0 bytes with
      | none => rw [ho] at h; cases h
      | some o =>
        rw [ho] at h hsome
        cases h
        rw [Option.isSome_some, eq_comm, decide_eq_true_eq] at hsome
        exact ⟨by omega, hnamed, by simpa using hbad, mk, _, _, _, rfl, rfl, rfl⟩
  · rintro ⟨hlen, hnamed, hbad, mk, reg, dst, imm, hrow, ho, rfl⟩
    rw [if_neg (by omega), if_pos hnamed, if_neg (by omega), hrow, Option.elim_some, if_neg (by simp [hbad]), ho]
    rfl

/-! ## Encoding and back -/

/-- An over-long encoding, or the operands of one that fits, once the bytes after the opcode are known to hold them. -/
theorem vexDecoded_of_operands {k : Nat} {pre : List LegacyPrefix} {b1 b2 op : Byte} {bytes : List Byte}
    {reg : BitVec 3} {dst : Dst 4} {imm : Byte} (hnamed : vexNamed b1 b2 op) (hbad : vexBad b2 = false)
    (ho : vexOperands b1 bytes = some (reg, dst, imm)) :
    vexDecoded k pre b1 b2 op bytes =
      if 15 < k + 6 + dst.length then .tooLong
      else .instr (.vextractf128 pre dst (BitVec.ofBool (!b1.getLsbD 7) ++ reg) imm) := by
  have htail := length_of_readOperands ho
  have hfit : (vexOperands b1 bytes).isSome = _ := isSome_readOperands _ _ _ bytes
  rw [ho, Option.isSome_some, eq_comm, decide_eq_true_eq] at hfit
  unfold vexDecoded
  rw [if_pos hnamed, ho, Option.elim_some, hbad]
  split
  · rw [if_pos (by omega)]
  · exact if_congr (by omega) rfl rfl

theorem vexOperands_operandBytes {b1 : Byte} {dst : Dst 4} (hx : b1.getLsbD 6 = !dst.rmFields.x)
    (hb : b1.getLsbD 5 = !dst.rmFields.b) (reg : BitVec 3) (imm : Byte) (rest : List Byte) (hwf : dst.wf = true) :
    vexOperands b1 (operandBytes reg dst.rmFields imm ++ rest) = some (reg, dst, imm) := by
  unfold vexOperands
  rw [hx, hb, Bool.not_not, Bool.not_not]
  refine readOperands_operandBytes dst _ reg imm rest (fun d hd => ?_) hwf
  rw [hd]
  exact ofBool_append_extract4 d

theorem evexOperands_operandBytes {p0 : Byte} {dst : Dst 5} (hx : p0.getLsbD 6 = !dst.rmFields.x)
    (hb : p0.getLsbD 5 = !dst.rmFields.b) (reg : BitVec 3) (imm : Byte) (rest : List Byte) (hwf : dst.wf = true) :
    evexOperands p0 (operandBytes reg dst.rmFields imm ++ rest) = some (reg, dst, imm) := by
  unfold evexOperands
  rw [hx, hb, Bool.not_not, Bool.not_not]
  refine readOperands_operandBytes dst _ reg imm rest (fun d hd => ?_) hwf
  rw [hd]
  exact ofBool_append_extract5 d

theorem decode_encodeVex (pre : List LegacyPrefix) (dst : Dst 4) (src : BitVec 4) (imm : Byte) (rest : List Byte)
    (hwf : dst.wf = true) :
    decode (encodeVex pre dst src imm ++ rest) =
      if 15 < vexLength pre dst then .tooLong else .instr (.vextractf128 pre dst src imm) := by
  obtain ⟨hmap, hr, hx, hb⟩ := vexByte1_fields (!src.getLsbD 3) (!dst.rmFields.x) (!dst.rmFields.b)
  have ho := vexOperands_operandBytes hx hb (src.extractLsb' 0 3) imm rest hwf
  rw [encodeVex, List.append_assoc, List.append_assoc]
  refine (decode_vex pre _ _ _ (operandBytes _ _ _ ++ rest)).trans ?_
  rw [vexDecoded_of_operands ⟨hmap, rfl, rfl⟩ rfl ho, hr, Bool.not_not, ofBool_append_extract4]
  rfl

theorem evexDecoded_of_operands {k : Nat} {pre : List LegacyPrefix} {p0 p1 p2 op : Byte} {bytes : List Byte}
    {mk : List LegacyPrefix → WriteMask → Dst 5 → BitVec 5 → Byte → Instr} {reg : BitVec 3} {dst : Dst 5} {imm : Byte}
    (hnamed : evexNamed p0 p1 op) (hrow : evexRow op (p1.getLsbD 7) (p2.extractLsb' 5 2) = some mk)
    (ho : evexOperands p0 bytes = some (reg, dst, imm)) :
    evexDecoded k pre p0 p1 p2 op bytes =
      if 15 < k + 7 + dst.length then .tooLong
      else if evexBad p0 p1 p2 bytes then .undefinedOpcode
      else .instr
        (mk pre (evexMask p2) dst (BitVec.ofBool (!p0.getLsbD 4) ++ BitVec.ofBool (!p0.getLsbD 7) ++ reg) imm) := by
  have htail := length_of_readOperands ho
  have hfit : (evexOperands p0 bytes).isSome = _ := isSome_readOperands _ _ _ bytes
  rw [ho, Option.isSome_some, eq_comm, decide_eq_true_eq] at hfit
  unfold evexDecoded
  rw [if_pos hnamed, hrow, Option.elim_some, ho]
  split
  · rw [if_pos (by omega)]
  · rw [if_congr (show _ ↔ 15 < k + 7 + dst.length by omega) rfl rfl]
    rfl

theorem decode_encodeEvex {op : Byte} {w : Bool} {ll : BitVec 2}
    {mk : List LegacyPrefix → WriteMask → Dst 5 → BitVec 5 → Byte → Instr} (hrow : evexRow op w ll = some mk)
    (pre : List LegacyPrefix) (wm : WriteMask) (dst : Dst 5) (src : BitVec 5) (imm : Byte) (rest : List Byte)
    (hwf : dst.wf = true) :
    decode (encodeEvex op w ll pre wm dst src imm ++ rest) =
      if 15 < evexLength pre dst then .tooLong
      else if wm.legal dst then .instr (mk pre wm dst src imm) else .undefinedOpcode := by
  obtain ⟨hmm, hres, hr, hx, hb, hr'⟩ := evexP0_fields (!src.getLsbD 3) (!dst.rmFields.x) (!dst.rmFields.b)
    (!src.getLsbD 4)
  obtain ⟨hpp, hu, hv, hw⟩ := evexP1_fields w
  obtain ⟨haaa, hz, hll, hv', hbc⟩ := evexP2_fields wm.z ll wm.aaa
  have ho := evexOperands_operandBytes hx hb (src.extractLsb' 0 3) imm rest hwf
  have hmask : evexMask (BitVec.ofBool wm.z ++ ll ++ 0b01#2 ++ wm.aaa) = wm := by rw [evexMask, haaa, hz]
  rw [← hw, ← hll] at hrow
  rw [encodeEvex, List.append_assoc, List.append_assoc]
  refine (decode_evex pre _ _ _ _ (operandBytes _ _ _ ++ rest)).trans ?_
  rw [evexDecoded_of_operands ⟨hmm, hpp, (evexRow_some hrow).opcode⟩ hrow ho, evexBad, evexReserved,
    zeroingBad_of_readOperands _ ho, hmask, hres, hu, hv, hv', hbc, hr, hr', Bool.not_not, Bool.not_not,
    ofBool_append_extract5]
  cases wm.legal dst <;> rfl

/-- Decoding an encoded instruction, whatever bytes follow. -/
theorem decode_encode (i : Instr) (rest : List Byte) (hwf : i.dstWf = true) :
    decode (encode i ++ rest) =
      if 15 < i.length then .tooLong else if i.maskLegal then .instr i else .undefinedOpcode := by
  rcases i.vex_or_evex with ⟨pre, dst, src, imm, rfl⟩ | ⟨op, w, ll, mk, pre, wm, dst, src, imm, hrow, rfl⟩
  · exact decode_encodeVex pre dst src imm rest (by cases dst <;> exact hwf)
  · have hmk := evexRow_some hrow
    rw [hmk.dstWf] at hwf
    rw [hmk.encode, hmk.length, hmk.maskLegal]
    exact decode_encodeEvex hrow pre wm dst src imm rest hwf

/-- Settles O1: the operand bytes are read back by the readers of the decoder, and the fields of the VEX and EVEX bytes
field by field. -/
theorem decodeEncodeRoundTrip : Obligations.DecodeEncodeRoundTrip := by
  intro i rest hwf
  rw [Instr.wf_eq, Bool.and_eq_true, Bool.and_eq_true, decide_eq_true_eq] at hwf
  obtain ⟨⟨hdst, hmask⟩, hlen⟩ := hwf
  rw [decode_encode i rest hdst, if_neg (by omega), if_pos hmask]

/-! ## What decodes -/

theorem scanPrefixes_eq_append {bytes rest : List Byte} {pre : List LegacyPrefix}
    (h : scanPrefixes bytes = (pre, false, rest)) : bytes = pre.map LegacyPrefix.byte ++ rest := by
  have hbyte : ∀ (b : Byte) (p : LegacyPrefix), legacyPrefixOf b = some p → b = p.byte := by decide
  induction bytes generalizing pre rest with
  | nil => cases h; rfl
  | cons b bs ih =>
    unfold scanPrefixes at h
    split at h
    · next p hp =>
      simp only [Prod.mk.injEq] at h
      obtain ⟨rfl, hflag, rfl⟩ := h
      rw [hbyte b p hp, List.map_cons, List.cons_append, ← ih (by rw [← hflag])]
    · split at h
      · cases h
      · cases h; rfl

theorem ranOut_ne_instr (full bad : Bool) (i : Instr) : ranOut full bad ≠ .instr i := by
  cases full <;> cases bad <;> simp [ranOut]

theorem Decoded.afterForbidden_eq (d : Decoded) :
    d.afterForbidden = if d = .tooLong then .tooLong else .undefinedOpcode := by cases d <;> rfl

/-- Bytes that decode to an instruction are legal bytes in front, and VEX or EVEX bytes after them. -/
theorem decode_eq_instr {bytes : List Byte} {i : Instr} (h : decode bytes = .instr i) :
    (∃ pre b1 b2 op tl, bytes = pre.map LegacyPrefix.byte ++ 0xC4#8 :: b1 :: b2 :: op :: tl ∧
      vexDecoded pre.length pre b1 b2 op tl = .instr i) ∨
    ∃ pre p0 p1 p2 op tl, bytes = pre.map LegacyPrefix.byte ++ 0x62#8 :: p0 :: p1 :: p2 :: op :: tl ∧
      evexDecoded pre.length pre p0 p1 p2 op tl = .instr i := by
  have hnever : ∀ d : Decoded, d.afterForbidden ≠ .instr i := fun d => by
    rw [Decoded.afterForbidden_eq]; split <;> simp
  have hdec := h
  unfold decode at h
  rcases hscan : scanPrefixes (bytes.take Config.maxInsnLen) with ⟨pre, flag, window⟩
  rw [hscan] at h
  cases window with
  | nil => exact absurd h (ranOut_ne_instr _ _ _)
  | cons b window =>
    simp only at h
    have hbytes (hflag : ¬ flag = true) : ∃ tl, bytes = pre.map LegacyPrefix.byte ++ b :: (window ++ tl) := by
      rw [Bool.not_eq_true] at hflag
      subst hflag
      refine ⟨bytes.drop Config.maxInsnLen, ?_⟩
      rw [← List.cons_append, ← List.append_assoc, ← scanPrefixes_eq_append hscan, List.take_append_drop]
    split at h
    · next hb =>
      split at h
      · exact absurd h (hnever _)
      · next hflag =>
        obtain ⟨tl, rfl⟩ := hbytes hflag
        subst hb
        match window, h with
        | b1 :: b2 :: op :: window, _ =>
          exact .inl ⟨pre, b1, b2, op, _, rfl, (decode_vex ..).symm.trans hdec⟩
        | [], h => exact absurd h (ranOut_ne_instr _ _ _)
        | [_], h => exact absurd h (ranOut_ne_instr _ _ _)
        | [_, _], h => exact absurd h (ranOut_ne_instr _ _ _)
    · split at h
      · next hb =>
        split at h
        · exact absurd h (hnever _)
        · next hflag =>
          obtain ⟨tl, rfl⟩ := hbytes hflag
          subst hb
          match window, h with
          | p0 :: p1 :: p2 :: op :: window, _ =>
            exact .inr ⟨pre, p0, p1, p2, op, _, rfl, (decode_evex ..).symm.trans hdec⟩
          | [], h => exact absurd h (ranOut_ne_instr _ _ _)
          | [_], h => exact absurd h (ranOut_ne_instr _ _ _)
          | [_, _], h => exact absurd h (ranOut_ne_instr _ _ _)
          | [_, _, _], h => exact absurd h (ranOut_ne_instr _ _ _)
      · cases h

/-- What VEX bytes decode to is well-formed, as long as its bytes say, and decoded from those bytes alone. -/
theorem vexDecoded_instr {pre : List LegacyPrefix} {b1 b2 op : Byte} {bytes : List Byte} {i : Instr}
    (h : vexDecoded pre.length pre b1 b2 op bytes = .instr i) :
    i.wf = true ∧ i.length = pre.length + 4 + tailLength bytes ∧ i.row = 1 ∧ i.pre = pre ∧
      ∃ u r, bytes = u ++ r ∧ u.length = tailLength bytes ∧
        ∀ r', vexDecoded pre.length pre b1 b2 op (u ++ r') = .instr i := by
  obtain ⟨hlen, hnamed, hbad, reg, dst, imm, ho, rfl⟩ := vexDecoded_eq_instr_iff.1 h
  have htail := length_of_readOperands ho
  obtain ⟨hwf, -, u, r, hu, hbytes, hread⟩ := readOperands_inv ho
  have hlength : vexLength pre dst = pre.length + 4 + tailLength bytes := by unfold vexLength; omega
  refine ⟨?_, hlength, rfl, rfl, u, r, hbytes, by omega, fun r' => ?_⟩
  · have hfit : vexLength pre dst ≤ 15 := by omega
    exact Bool.and_eq_true_iff.2 ⟨hwf, decide_eq_true hfit⟩
  · exact vexDecoded_eq_instr_iff.2
      ⟨by rw [← length_of_readOperands (hread r'), htail]; exact hlen, hnamed, hbad, _, _, _, hread r', rfl⟩

theorem evexDecoded_instr {pre : List LegacyPrefix} {p0 p1 p2 op : Byte} {bytes : List Byte} {i : Instr}
    (h : evexDecoded pre.length pre p0 p1 p2 op bytes = .instr i) :
    i.wf = true ∧ i.length = pre.length + 5 + tailLength bytes ∧
      evexFields i.row = some (op, p1.getLsbD 7, p2.extractLsb' 5 2) ∧ i.pre = pre ∧
      ∃ u r, bytes = u ++ r ∧ u.length = tailLength bytes ∧
        ∀ r', evexDecoded pre.length pre p0 p1 p2 op (u ++ r') = .instr i := by
  obtain ⟨hlen, hnamed, hbad, mk, reg, dst, imm, hrow, ho, rfl⟩ := evexDecoded_eq_instr_iff.1 h
  have htail := length_of_readOperands ho
  have hmk := evexRow_some hrow
  have hzero := zeroingBad_of_readOperands (evexMask p2) ho
  obtain ⟨hwf, -, u, r, hu, hbytes, hread⟩ := readOperands_inv ho
  have hlength : evexLength pre dst = pre.length + 5 + tailLength bytes := by unfold evexLength; omega
  refine ⟨?_, (hmk.length ..).trans hlength, hmk.fields .., hmk.pre .., u, r, hbytes, by omega, fun r' => ?_⟩
  · have hlegal : (evexMask p2).legal dst = true := by
      rw [evexBad, hzero, Bool.or_eq_false_iff] at hbad
      simpa using hbad.2
    rw [hmk.wf, evexWf, hwf, hlegal, Bool.true_and, Bool.true_and, decide_eq_true_eq, Config.maxInsnLen]
    omega
  · refine evexDecoded_eq_instr_iff.2
      ⟨by rw [← length_of_readOperands (hread r'), htail]; exact hlen, hnamed, ?_, mk, _, _, _, hrow, hread r', rfl⟩
    rw [evexBad, zeroingBad_of_readOperands (evexMask p2) (hread r'), ← hzero]
    exact hbad

/-- Settles O2: the destination is one that the readers gave, and the length is the number of bytes they read. -/
theorem decodedInstructionIsWellFormed : Obligations.DecodedInstructionIsWellFormed := by
  intro bytes i h
  rcases decode_eq_instr h with ⟨pre, b1, b2, op, tl, rfl, hvex⟩ | ⟨pre, p0, p1, p2, op, tl, rfl, hevex⟩
  · obtain ⟨hwf, hlen, -, -, u, r, rfl, hu, -⟩ := vexDecoded_instr hvex
    refine ⟨hwf, ?_⟩
    simp only [hlen, ← hu, List.length_append, List.length_map, List.length_cons]
    omega
  · obtain ⟨hwf, hlen, -, -, u, r, rfl, hu, -⟩ := evexDecoded_instr hevex
    refine ⟨hwf, ?_⟩
    simp only [hlen, ← hu, List.length_append, List.length_map, List.length_cons]
    omega

theorem take_append_window {front fixed u r : List Byte} {n : Nat} (h : n = front.length + fixed.length + u.length)
    (rest : List Byte) : (front ++ (fixed ++ (u ++ r))).take n ++ rest = front ++ (fixed ++ (u ++ rest)) := by
  have hsplit : front ++ (fixed ++ (u ++ r)) = (front ++ fixed ++ u) ++ r := by simp only [List.append_assoc]
  rw [hsplit, List.take_left' (by simp only [List.length_append, h])]
  simp only [List.append_assoc]

/-- Settles O3: the bytes up to the instruction's length are those in front, the VEX or EVEX bytes and the operand bytes
that the readers consumed, and these give the same whatever follows. -/
theorem decodingReadsOnlyItsLength : Obligations.DecodingReadsOnlyItsLength := by
  intro bytes rest i h
  rcases decode_eq_instr h with ⟨pre, b1, b2, op, tl, rfl, hvex⟩ | ⟨pre, p0, p1, p2, op, tl, rfl, hevex⟩
  · obtain ⟨-, hlen, -, -, u, r, htl, hu, hsame⟩ := vexDecoded_instr hvex
    have hcut := take_append_window (front := pre.map LegacyPrefix.byte) (fixed := [0xC4#8, b1, b2, op]) (u := u)
      (r := r) (n := i.length) (by rw [hlen, hu, List.length_map]; rfl) rest
    rw [htl]
    exact (congrArg decode hcut).trans ((decode_vex pre b1 b2 op (u ++ rest)).trans (hsame rest))
  · obtain ⟨-, hlen, -, -, u, r, htl, hu, hsame⟩ := evexDecoded_instr hevex
    have hcut := take_append_window (front := pre.map LegacyPrefix.byte) (fixed := [0x62#8, p0, p1, p2, op]) (u := u)
      (r := r) (n := i.length) (by rw [hlen, hu, List.length_map]; rfl) rest
    rw [htl]
    exact (congrArg decode hcut).trans ((decode_evex pre p0 p1 p2 op (u ++ rest)).trans (hsame rest))

end Sys2Proof
end

section
/-! What the decoder makes of bytes by their pattern: the rows of the opcode table (30_encoding.md section 6), the bits
it ignores (log 14), and the encodings of section 7 that are #UD, too long or out of scope. -/

namespace Sys2Proof

/-! ## Match and mask (30_encoding.md R331) -/

theorem append_eq_append_iff {v w : Nat} {a a' : BitVec v} {b b' : BitVec w} :
    a ++ b = a' ++ b' ↔ a = a' ∧ b = b' := by
  refine ⟨fun h => ⟨?_, ?_⟩, fun ⟨ha, hb⟩ => by rw [ha, hb]⟩
  · simpa only [BitVec.extractLsb'_append_eq_left] using congrArg (·.extractLsb' w v) h
  · simpa only [BitVec.extractLsb'_append_eq_right] using congrArg (·.extractLsb' 0 w) h

/-- A mask over five bytes is a mask over each. -/
theorem append5_and_eq_iff (b0 b1 b2 b3 b4 m0 m1 m2 m3 m4 v0 v1 v2 v3 v4 : Byte) :
    (b0 ++ b1 ++ b2 ++ b3 ++ b4) &&& (m0 ++ m1 ++ m2 ++ m3 ++ m4) = (v0 ++ v1 ++ v2 ++ v3 ++ v4) ↔
      b0 &&& m0 = v0 ∧ b1 &&& m1 = v1 ∧ b2 &&& m2 = v2 ∧ b3 &&& m3 = v3 ∧ b4 &&& m4 = v4 := by
  simp only [BitVec.and_append, append_eq_append_iff, and_assoc]

theorem and_full_eq_iff (b v : Byte) : b &&& 0xFF#8 = v ↔ b = v := by
  rw [show 0xFF#8 = BitVec.allOnes 8 from rfl, BitVec.and_allOnes]

/-- Row 1: the VEX fields of VEXTRACTF128. -/
theorem rowMatches_one_iff {b0 b1 b2 b3 b4 : Byte} :
    Instr.rowMatches 1 (b0 ++ b1 ++ b2 ++ b3 ++ b4) = true ↔
      b0 = 0xC4#8 ∧ vexNamed b1 b2 b3 ∧ vexBad b2 = false := by
  have hbytes := append5_and_eq_iff b0 b1 b2 b3 b4 0xFF#8 0x1F#8 0xFF#8 0xFF#8 0x00#8 0xC4#8 0x03#8 0x7D#8 0x19#8 0x00#8
  have h1 : ∀ b : Byte, b &&& 0x1F#8 = 0x03#8 ↔ b.extractLsb' 0 5 = 0b00011#5 := by decide
  have h2 : ∀ b : Byte, b = 0x7D#8 ↔ b.extractLsb' 0 2 = 0b01#2 ∧ vexBad b = false := by decide
  have h4 : b4 &&& 0x00#8 = 0x00#8 := BitVec.and_zero
  have hmask : (0xFF#8 ++ 0x1F#8 ++ 0xFF#8 ++ 0xFF#8 ++ 0x00#8 : BitVec 40) = 0xFF1FFFFF00#40 := by decide
  have hmatch : (0xC4#8 ++ 0x03#8 ++ 0x7D#8 ++ 0x19#8 ++ 0x00#8 : BitVec 40) = 0xC4037D1900#40 := by decide
  rw [and_full_eq_iff, and_full_eq_iff, and_full_eq_iff, h1, h2, hmask, hmatch] at hbytes
  rw [Instr.rowMatches, beq_iff_eq, hbytes]
  exact ⟨fun ⟨h0, hmap, ⟨hpp, hbad⟩, hop, _⟩ => ⟨h0, ⟨hmap, hpp, hop⟩, hbad⟩,
    fun ⟨h0, ⟨hmap, hpp, hop⟩, hbad⟩ => ⟨h0, hmap, ⟨hpp, hbad⟩, hop, h4⟩⟩

/-- The fixed fields of P0, P1 and P2 in every EVEX row: mm, pp, the reserved bits, vvvv, V' and b. -/
def evexPattern (p0 p1 p2 : Byte) : Prop :=
  p0.extractLsb' 0 2 = 0b11#2 ∧ p1.extractLsb' 0 2 = 0b01#2 ∧ evexReserved p0 p1 = false ∧
    p1.extractLsb' 3 4 = 0b1111#4 ∧ p2.getLsbD 3 = true ∧ p2.getLsbD 4 = false

/-- The match and mask of an EVEX row, by its fields. -/
theorem evexMatch_iff {b0 b1 b2 b3 b4 op : Byte} {w : Bool} {ll : BitVec 2} {v : BitVec 40}
    (hv : 0x62#8 ++ 0x03#8 ++ (BitVec.ofBool w ++ 0b1111101#7 : Byte) ++ (0#1 ++ ll ++ 0b01000#5 : Byte) ++ op = v) :
    ((b0 ++ b1 ++ b2 ++ b3 ++ b4) &&& 0xFF0FFF78FF#40 == v) = true ↔
      b0 = 0x62#8 ∧ evexPattern b1 b2 b3 ∧ some (op, w, ll) = some (b4, b2.getLsbD 7, b3.extractLsb' 5 2) := by
  have hbytes := append5_and_eq_iff b0 b1 b2 b3 b4 0xFF#8 0x0F#8 0xFF#8 0x78#8 0xFF#8 0x62#8 0x03#8
    (BitVec.ofBool w ++ 0b1111101#7) (0#1 ++ ll ++ 0b01000#5) op
  have h1 : ∀ b : Byte, b &&& 0x0F#8 = 0x03#8 ↔ b.extractLsb' 0 2 = 0b11#2 ∧ b.extractLsb' 2 2 = 0b00#2 := by decide
  have h2 : ∀ (w : Bool) (b : Byte), b = BitVec.ofBool w ++ 0b1111101#7 ↔
      b.extractLsb' 0 2 = 0b01#2 ∧ b.getLsbD 2 = true ∧ b.extractLsb' 3 4 = 0b1111#4 ∧ w = b.getLsbD 7 := by decide
  have h3 : ∀ (ll : BitVec 2) (b : Byte), b &&& 0x78#8 = 0#1 ++ ll ++ 0b01000#5 ↔
      b.getLsbD 3 = true ∧ b.getLsbD 4 = false ∧ ll = b.extractLsb' 5 2 := by decide
  have hres : evexReserved b1 b2 = false ↔ b1.extractLsb' 2 2 = 0b00#2 ∧ b2.getLsbD 2 = true := by simp [evexReserved]
  have hmask : (0xFF#8 ++ 0x0F#8 ++ 0xFF#8 ++ 0x78#8 ++ 0xFF#8 : BitVec 40) = 0xFF0FFF78FF#40 := by decide
  rw [and_full_eq_iff, and_full_eq_iff, and_full_eq_iff, h1, h2, h3, hmask, hv] at hbytes
  rw [beq_iff_eq, hbytes, evexPattern, hres, Option.some.injEq, Prod.mk.injEq, Prod.mk.injEq, eq_comm (a := op)]
  exact ⟨fun ⟨h0, ⟨hmm, hp⟩, ⟨hpp, hu, hv, hw⟩, ⟨hv', hb, hll⟩, hop⟩ =>
      ⟨h0, ⟨hmm, hpp, ⟨hp, hu⟩, hv, hv', hb⟩, hop, hw, hll⟩,
    fun ⟨h0, ⟨hmm, hpp, ⟨hp, hu⟩, hv, hv', hb⟩, hop, hw, hll⟩ =>
      ⟨h0, ⟨hmm, hp⟩, ⟨hpp, hu, hv, hw⟩, ⟨hv', hb, hll⟩, hop⟩⟩

/-- Rows 2 to 7: the fixed EVEX fields, and the row's opcode, W and L'L. -/
theorem rowMatches_evex_iff {n : Nat} (hn : 2 ≤ n) {b0 b1 b2 b3 b4 : Byte} :
    Instr.rowMatches n (b0 ++ b1 ++ b2 ++ b3 ++ b4) = true ↔
      b0 = 0x62#8 ∧ evexPattern b1 b2 b3 ∧ evexFields n = some (b4, b2.getLsbD 7, b3.extractLsb' 5 2) := by
  match n, hn with
  | 2, _ => exact evexMatch_iff (by decide)
  | 3, _ => exact evexMatch_iff (by decide)
  | 4, _ => exact evexMatch_iff (by decide)
  | 5, _ => exact evexMatch_iff (by decide)
  | 6, _ => exact evexMatch_iff (by decide)
  | 7, _ => exact evexMatch_iff (by decide)
  | n + 8, _ => simp [Instr.rowMatches, evexFields]

theorem evexFields_some_lt {n : Nat} {x : Byte × Bool × BitVec 2} (h : evexFields n = some x) : n < 8 := by
  match n, h with
  | 0, h | 1, h | _ + 8, h => cases h
  | 2, _ | 3, _ | 4, _ | 5, _ | 6, _ | 7, _ => decide

theorem evexFields_inj {n m : Nat} {x : Byte × Bool × BitVec 2} (hn : evexFields n = some x)
    (hm : evexFields m = some x) : n = m := by
  have hinj : ∀ n m : Fin 8, evexFields n = evexFields m → evexFields n = none ∨ n = m := by decide
  rcases hinj ⟨n, evexFields_some_lt hn⟩ ⟨m, evexFields_some_lt hm⟩ (hn.trans hm.symm) with h | h
  · exact absurd (hn.symm.trans h) (by simp)
  · exact congrArg Fin.val h

/-- The fixed fields of an EVEX row are those that are not #UD, but for the zeroing rule. -/
theorem evexPattern_iff {p0 p1 p2 : Byte} {bytes : List Byte} (hzero : zeroingBad (evexMask p2) bytes = false) :
    evexPattern p0 p1 p2 ↔
      p0.extractLsb' 0 2 = 0b11#2 ∧ p1.extractLsb' 0 2 = 0b01#2 ∧ evexBad p0 p1 p2 bytes = false := by
  simp only [evexPattern, evexBad, hzero, Bool.or_eq_false_iff, bne_eq_false_iff_eq, Bool.not_eq_false', and_true,
    and_assoc]

theorem zeroingBad_eq_false_iff {wm : WriteMask} {bytes : List Byte} (hne : bytes ≠ []) :
    zeroingBad wm bytes = false ↔
      (wm.z = true → (bytes.getD 0 0).extractLsb' 6 2 = 0b11#2 ∧ wm.aaa ≠ 0b000#3) := by
  cases bytes with
  | nil => exact absurd rfl hne
  | cons modrm tl => cases h : wm.z <;> simp [zeroingBad, h]

/-- Bytes that meet row 1, whose operand bytes are there and end in time. -/
theorem vexDecoded_of_pattern {pre : List LegacyPrefix} {b1 b2 op : Byte} {bytes : List Byte}
    (hnamed : vexNamed b1 b2 op) (hbad : vexBad b2 = false) (hfit : tailLength bytes ≤ bytes.length)
    (hlen : pre.length + 4 + tailLength bytes ≤ 15) :
    ∃ i, vexDecoded pre.length pre b1 b2 op bytes = .instr i := by
  have hsome : (vexOperands b1 bytes).isSome = _ := isSome_readOperands _ _ _ bytes
  rw [decide_eq_true hfit, Option.isSome_iff_exists] at hsome
  obtain ⟨⟨reg, dst, imm⟩, ho⟩ := hsome
  exact ⟨_, vexDecoded_eq_instr_iff.2 ⟨hlen, hnamed, hbad, reg, dst, imm, ho, rfl⟩⟩

theorem evexRow_of_fields {n : Nat} {op : Byte} {w : Bool} {ll : BitVec 2} (h : evexFields n = some (op, w, ll)) :
    (op = 0x19#8 ∨ op = 0x1B#8) ∧ ∃ mk, evexRow op w ll = some mk := by
  match n, h with
  | 0, h | 1, h | _ + 8, h => cases h
  | 2, h | 3, h | 4, h | 5, h | 6, h | 7, h => cases h; exact ⟨by decide, _, rfl⟩

/-- Bytes that meet an EVEX row, with legal zeroing, whose operand bytes are there and end in time. -/
theorem evexDecoded_of_pattern {pre : List LegacyPrefix} {p0 p1 p2 op : Byte} {bytes : List Byte} {n : Nat}
    (hpat : evexPattern p0 p1 p2) (hfields : evexFields n = some (op, p1.getLsbD 7, p2.extractLsb' 5 2))
    (hzero : zeroingBad (evexMask p2) bytes = false) (hfit : tailLength bytes ≤ bytes.length)
    (hlen : pre.length + 5 + tailLength bytes ≤ 15) :
    ∃ i, evexDecoded pre.length pre p0 p1 p2 op bytes = .instr i := by
  have hsome : (evexOperands p0 bytes).isSome = _ := isSome_readOperands _ _ _ bytes
  rw [decide_eq_true hfit, Option.isSome_iff_exists] at hsome
  obtain ⟨⟨reg, dst, imm⟩, ho⟩ := hsome
  obtain ⟨hop, mk, hrow⟩ := evexRow_of_fields hfields
  obtain ⟨hmm, hpp, hbad⟩ := (evexPattern_iff hzero).1 hpat
  exact ⟨_, evexDecoded_eq_instr_iff.2 ⟨hlen, ⟨hmm, hpp, hop⟩, hbad, mk, reg, dst, imm, hrow, ho, rfl⟩⟩

theorem vexDecoded_row_iff {pre : List LegacyPrefix} {b1 b2 b3 b4 : Byte} {bytes : List Byte} {i : Instr}
    (h : vexDecoded pre.length pre b1 b2 b3 (b4 :: bytes) = .instr i) (n : Nat) :
    i.row = n ↔ Instr.rowMatches n (0xC4#8 ++ b1 ++ b2 ++ b3 ++ b4) = true := by
  obtain ⟨-, hnamed, hbad, -⟩ := vexDecoded_eq_instr_iff.1 h
  obtain ⟨-, -, hrow, -⟩ := vexDecoded_instr h
  rw [hrow]
  match n with
  | 0 => simp [Instr.rowMatches]
  | 1 => rw [rowMatches_one_iff]; exact iff_of_true rfl ⟨rfl, hnamed, hbad⟩
  | n + 2 =>
    rw [rowMatches_evex_iff (by omega)]
    exact iff_of_false (by omega) fun hvex => absurd hvex.1 (by decide)

theorem evexDecoded_row_iff {pre : List LegacyPrefix} {b1 b2 b3 b4 : Byte} {bytes : List Byte} {i : Instr}
    (h : evexDecoded pre.length pre b1 b2 b3 b4 bytes = .instr i) (n : Nat) :
    i.row = n ↔ Instr.rowMatches n (0x62#8 ++ b1 ++ b2 ++ b3 ++ b4) = true := by
  obtain ⟨-, ⟨hmm, hpp, -⟩, hbad, -⟩ := evexDecoded_eq_instr_iff.1 h
  obtain ⟨-, -, hfields, -⟩ := evexDecoded_instr h
  have hzero : zeroingBad (evexMask b3) bytes = false := by
    rw [evexBad, Bool.or_eq_false_iff] at hbad
    exact hbad.2
  have hpat := (evexPattern_iff hzero).2 ⟨hmm, hpp, hbad⟩
  match n with
  | 0 => exact iff_of_false (fun hrow => by rw [hrow] at hfields; cases hfields) (by simp [Instr.rowMatches])
  | 1 =>
    rw [rowMatches_one_iff]
    exact iff_of_false (fun hrow => by rw [hrow] at hfields; cases hfields) fun hvex => absurd hvex.1 (by decide)
  | n + 2 =>
    rw [rowMatches_evex_iff (by omega)]
    exact ⟨fun hrow => ⟨rfl, hpat, hrow ▸ hfields⟩, fun hmatch => evexFields_inj hfields hmatch.2.2⟩

/-- Settles O4: match and mask are the fields that the decoder tests, byte by byte. -/
theorem decodedRowMatchesBitPattern : Obligations.DecodedRowMatchesBitPattern := by
  intro pre b0 b1 b2 b3 b4 bytes
  refine ⟨fun i hb0 h n => ?_, fun hmatch hfit hlen => ?_, fun n hn hmatch hzero hfit hlen => ?_⟩
  · rcases hb0 with rfl | rfl
    · rw [decode_vex] at h
      exact vexDecoded_row_iff h n
    · rw [decode_evex] at h
      exact evexDecoded_row_iff h n
  · obtain ⟨rfl, hnamed, hbad⟩ := rowMatches_one_iff.1 hmatch
    obtain ⟨i, hi⟩ := vexDecoded_of_pattern hnamed hbad hfit hlen
    obtain ⟨-, hlength, hrow, hpre, -⟩ := vexDecoded_instr hi
    exact ⟨i, (decode_vex ..).trans hi, hrow, hpre, hlength⟩
  · obtain ⟨rfl, hpat, hfields⟩ := (rowMatches_evex_iff hn).1 hmatch
    have hne : bytes ≠ [] := fun e => by
      have := two_le_tailLength bytes
      rw [e] at hfit this
      exact absurd hfit (by simp only [List.length_nil]; omega)
    obtain ⟨i, hi⟩ := evexDecoded_of_pattern hpat hfields ((zeroingBad_eq_false_iff hne).2 hzero) hfit hlen
    obtain ⟨-, hlength, hrow, hpre, -⟩ := evexDecoded_instr hi
    exact ⟨i, (decode_evex ..).trans hi, evexFields_inj hrow hfields, hpre, hlength⟩

/-! ## Ignored extension bits (log 14) -/

/-- X flipped: the other fields of the byte after C4 or 62 stay. -/
theorem flipX_fields (p : Byte) :
    (p ^^^ 0x40#8).extractLsb' 0 5 = p.extractLsb' 0 5 ∧ (p ^^^ 0x40#8).extractLsb' 0 2 = p.extractLsb' 0 2 ∧
      (p ^^^ 0x40#8).extractLsb' 2 2 = p.extractLsb' 2 2 ∧ (p ^^^ 0x40#8).getLsbD 7 = p.getLsbD 7 ∧
      (p ^^^ 0x40#8).getLsbD 5 = p.getLsbD 5 ∧ (p ^^^ 0x40#8).getLsbD 4 = p.getLsbD 4 := by
  revert p; decide

/-- B flipped: the other fields of the byte after C4 or 62 stay. -/
theorem flipB_fields (p : Byte) :
    (p ^^^ 0x20#8).extractLsb' 0 5 = p.extractLsb' 0 5 ∧ (p ^^^ 0x20#8).extractLsb' 0 2 = p.extractLsb' 0 2 ∧
      (p ^^^ 0x20#8).extractLsb' 2 2 = p.extractLsb' 2 2 ∧ (p ^^^ 0x20#8).getLsbD 7 = p.getLsbD 7 ∧
      (p ^^^ 0x20#8).getLsbD 6 = p.getLsbD 6 ∧ (p ^^^ 0x20#8).getLsbD 4 = p.getLsbD 4 := by
  revert p; decide

theorem decode_vex_short (pre : List LegacyPrefix) {bs : List Byte} (h : bs.length < 3) :
    decode (pre.map LegacyPrefix.byte ++ 0xC4#8 :: bs) = ranOut (decide (15 ≤ pre.length + 1 + bs.length)) false := by
  rw [decode_after_prefixes pre _ _ legacyPrefixOf_vexByte forbiddenPrefix_vexByte]
  split
  · rw [decide_eq_true (by omega)]; rfl
  · exact decodeVex_short _ _ (by rw [List.length_take]; omega)

/-- VEX byte 1 may be another that has the same map and R and gives the same operands. -/
theorem decode_vex_congr (pre : List LegacyPrefix) {b1 b1' : Byte} (b2 : Byte) {bytes : List Byte}
    (hmap : b1'.extractLsb' 0 5 = b1.extractLsb' 0 5) (hr : b1'.getLsbD 7 = b1.getLsbD 7)
    (ho : vexOperands b1' (bytes.drop 1) = vexOperands b1 (bytes.drop 1)) :
    decode (pre.map LegacyPrefix.byte ++ 0xC4#8 :: b1' :: b2 :: bytes) =
      decode (pre.map LegacyPrefix.byte ++ 0xC4#8 :: b1 :: b2 :: bytes) := by
  cases bytes with
  | nil =>
    have hshort : 2 < 3 := by decide
    rw [decode_vex_short pre (bs := [b1', b2]) hshort, decode_vex_short pre (bs := [b1, b2]) hshort]
    rfl
  | cons op tl =>
    rw [List.drop_one, List.tail_cons] at ho
    simp only [decode_vex, vexDecoded, vexNamed, hmap, hr, ho]

theorem decode_evex_congr (pre : List LegacyPrefix) {p0 p0' : Byte} (p1 p2 op : Byte) {bytes : List Byte}
    (hmm : p0'.extractLsb' 0 2 = p0.extractLsb' 0 2) (hres : p0'.extractLsb' 2 2 = p0.extractLsb' 2 2)
    (hr : p0'.getLsbD 7 = p0.getLsbD 7) (hr' : p0'.getLsbD 4 = p0.getLsbD 4)
    (ho : evexOperands p0' bytes = evexOperands p0 bytes) :
    decode (pre.map LegacyPrefix.byte ++ 0x62#8 :: p0' :: p1 :: p2 :: op :: bytes) =
      decode (pre.map LegacyPrefix.byte ++ 0x62#8 :: p0 :: p1 :: p2 :: op :: bytes) := by
  have hreserved : evexReserved p0' p1 = evexReserved p0 p1 := by rw [evexReserved, hres, evexReserved]
  have hbad : evexBad p0' p1 p2 bytes = evexBad p0 p1 p2 bytes := by rw [evexBad, hreserved, evexBad]
  rw [decode_evex, decode_evex, evexDecoded, hreserved, hbad, hr, hr', ho]
  exact if_congr Iff.rfl rfl (if_congr (by rw [evexNamed, hmm]) rfl rfl)

/-- Settles O5: flipping the bit leaves the other fields, and the readers of the operands do not look at it. -/
theorem unusedExtensionBitsAreIgnored : Obligations.UnusedExtensionBitsAreIgnored := by
  intro pre p p1 p2 op bytes
  have hdrop (n : Nat) : (bytes.drop 1).getD n 0 = bytes.getD (n + 1) 0 := by
    simp only [List.getD_eq_getElem?_getD, List.getElem?_drop, Nat.add_comm]
  obtain ⟨hxmap, hxmm, hxres, hxr, hxb, hxr'⟩ := flipX_fields p
  obtain ⟨hbmap, hbmm, hbres, hbr, hbx, hbr'⟩ := flipB_fields p
  refine ⟨⟨fun h => ?_, fun h => ?_⟩, fun h => ?_, fun h => ?_⟩
  · refine decode_vex_congr pre p1 hxmap hxr ?_
    unfold vexOperands
    rw [hxb]
    refine readOperands_congr (fun _ => rfl) fun hmem => ⟨.inr ?_, .inl rfl⟩
    rw [hdrop] at hmem ⊢
    exact h.resolve_left hmem
  · refine decode_vex_congr pre p1 hbmap hbr ?_
    unfold vexOperands
    rw [hbx]
    exact readOperands_congr (fun hreg => absurd (h.1.symm.trans hreg) (by decide)) fun _ => ⟨.inl rfl, .inr h⟩
  · refine decode_evex_congr pre p1 p2 op hxmm hxres hxr hxr' ?_
    unfold evexOperands
    rw [hxb]
    exact readOperands_congr (fun hreg => absurd hreg h.1) fun _ => ⟨.inr h.2, .inl rfl⟩
  · refine decode_evex_congr pre p1 p2 op hbmm hbres hbr hbr' ?_
    unfold evexOperands
    rw [hbx]
    exact readOperands_congr (fun hreg => absurd (h.1.symm.trans hreg) (by decide)) fun _ => ⟨.inl rfl, .inr h⟩

/-! ## Encodings that are #UD (30_encoding.md R340, R341) -/

theorem vexBad_iff {b2 : Byte} :
    vexBad b2 = true ↔ b2.getLsbD 2 = false ∨ b2.extractLsb' 3 4 ≠ 0b1111#4 ∨ b2.getLsbD 7 = true := by
  simp only [vexBad, Bool.or_eq_true, Bool.not_eq_true', bne_iff_ne, or_assoc]

theorem evexReserved_iff {p0 p1 : Byte} :
    evexReserved p0 p1 = true ↔ p0.extractLsb' 2 2 ≠ 0b00#2 ∨ p1.getLsbD 2 = false := by
  simp only [evexReserved, Bool.or_eq_true, Bool.not_eq_true', bne_iff_ne]

theorem evexBad_iff {p0 p1 p2 : Byte} {bytes : List Byte} :
    evexBad p0 p1 p2 bytes = true ↔ evexReserved p0 p1 = true ∨ p1.extractLsb' 3 4 ≠ 0b1111#4 ∨
      p2.getLsbD 3 = false ∨ p2.getLsbD 4 = true ∨ zeroingBad (evexMask p2) bytes = true := by
  simp only [evexBad, Bool.or_eq_true, Bool.not_eq_true', bne_iff_ne, or_assoc]

theorem vexDecoded_eq_tooLong_iff {k : Nat} {pre : List LegacyPrefix} {b1 b2 op : Byte} {bytes : List Byte} :
    vexDecoded k pre b1 b2 op bytes = .tooLong ↔
      15 < k + 4 ∨ (vexNamed b1 b2 op ∧ 15 ≤ k + 4 + bytes.length ∧ 15 < k + 4 + tailLength bytes) := by
  unfold vexDecoded
  split
  · next h => simp [h]
  · next h =>
    split
    · next hnamed =>
      split
      · next hlong => exact iff_of_true rfl (.inr ⟨hnamed, hlong⟩)
      · next hlong =>
        refine iff_of_false ?_ (by tauto)
        cases vexBad b2 <;> cases vexOperands b1 bytes <;> simp
    · next hnamed => exact iff_of_false (by simp) (by tauto)

theorem evexDecoded_eq_tooLong_iff {k : Nat} {pre : List LegacyPrefix} {p0 p1 p2 op : Byte} {bytes : List Byte} :
    evexDecoded k pre p0 p1 p2 op bytes = .tooLong ↔
      15 < k + 5 ∨ (evexNamed p0 p1 op ∧ 15 ≤ k + 5 + bytes.length ∧ 15 < k + 5 + tailLength bytes) := by
  unfold evexDecoded
  split
  · next h => simp [h]
  · next h =>
    split
    · next hnamed =>
      split
      · next hlong => exact iff_of_true rfl (.inr ⟨hnamed, hlong⟩)
      · next hlong =>
        refine iff_of_false ?_ (by tauto)
        cases evexRow op (p1.getLsbD 7) (p2.extractLsb' 5 2) with
        | none => simp
        | some mk => cases evexBad p0 p1 p2 bytes <;> cases evexOperands p0 bytes <;> simp
    · next hnamed =>
      refine iff_of_false ?_ (by tauto)
      cases evexReserved p0 p1 <;> simp

/-- VEX bytes of VEXTRACTF128 that break a rule: #UD, and only the length outranks it (60_exceptions.md R620). -/
theorem vexDecoded_of_bad {k : Nat} (pre : List LegacyPrefix) {b1 b2 op : Byte} (bytes : List Byte)
    (hnamed : vexNamed b1 b2 op) (hbad : vexBad b2 = true) :
    vexDecoded k pre b1 b2 op bytes =
      if 15 ≤ k + 4 + bytes.length ∧ 15 < k + 4 + tailLength bytes then .tooLong else .undefinedOpcode := by
  have htail := two_le_tailLength bytes
  split
  · next h => exact vexDecoded_eq_tooLong_iff.2 (.inr ⟨hnamed, h⟩)
  · next h => rw [vexDecoded, if_neg (by omega), if_pos hnamed, if_neg h, if_pos hbad]

theorem evexDecoded_of_bad {k : Nat} (pre : List LegacyPrefix) {p0 p1 p2 op : Byte} (bytes : List Byte)
    (hnamed : evexNamed p0 p1 op)
    (hbad : evexRow op (p1.getLsbD 7) (p2.extractLsb' 5 2) = none ∨ evexBad p0 p1 p2 bytes = true) :
    evexDecoded k pre p0 p1 p2 op bytes =
      if 15 ≤ k + 5 + bytes.length ∧ 15 < k + 5 + tailLength bytes then .tooLong else .undefinedOpcode := by
  have htail := two_le_tailLength bytes
  split
  · next h => exact evexDecoded_eq_tooLong_iff.2 (.inr ⟨hnamed, h⟩)
  · next h =>
    rw [evexDecoded, if_neg (by omega), if_pos hnamed, if_neg h]
    rcases hbad with hrow | hbad
    · rw [hrow]; rfl
    · rw [hbad]
      cases evexRow op (p1.getLsbD 7) (p2.extractLsb' 5 2) <;> rfl

/-- Settles O8: each near miss is a broken rule of the decoder's, or a vector length that no row has. -/
theorem nearMissEncodingsAreInvalid : Obligations.NearMissEncodingsAreInvalid := by
  refine ⟨fun pre b1 b2 bytes hmap hpp hw => ?_, fun pre p0 p1 p2 op modrm bytes hmm hpp hop hmiss => ?_,
    fun pre p0 p1 p2 op bytes hres hother => ?_⟩
  · rw [decode_vex]
    exact vexDecoded_of_bad pre bytes ⟨hmap, hpp, rfl⟩ (vexBad_iff.2 (.inr (.inr hw)))
  · rw [decode_evex, evexDecoded_of_bad pre (modrm :: bytes) ⟨hmm, hpp, hop⟩ ?_, List.length_cons]
    · exact if_congr (by omega) rfl rfl
    · rcases hmiss with h | h | h | h | ⟨rfl, h1, h2⟩ | ⟨rfl, h2⟩ | ⟨hz, h⟩
      · exact .inr (evexBad_iff.2 (.inl (evexReserved_iff.2 (.inl h))))
      · exact .inr (evexBad_iff.2 (.inl (evexReserved_iff.2 (.inr h))))
      · exact .inr (evexBad_iff.2 (.inr (.inr (.inl h))))
      · exact .inr (evexBad_iff.2 (.inr (.inr (.inr (.inl h)))))
      · exact .inl (by simp [evexRow, h1, h2])
      · exact .inl (by simp [evexRow, h2])
      · have hzero : zeroingBad (evexMask p2) (modrm :: bytes) = true := by
          rw [zeroingBad, evexMask, hz]
          simpa using h
        exact .inr (evexBad_iff.2 (.inr (.inr (.inr (.inr hzero)))))
  · have hnamed : ¬ evexNamed p0 p1 op := by unfold evexNamed; tauto
    rw [decode_evex, evexDecoded, if_neg hnamed, if_pos (evexReserved_iff.2 hres)]

/-- Settles O11: the decoder names the instruction by its map, pp and opcode before it reads any operand. -/
theorem otherBytesAreOutOfScope : Obligations.OtherBytesAreOutOfScope := by
  refine ⟨fun pre b bytes hlen hb hf hvex hevex => ?_, fun pre b1 b2 op bytes hlen hother => ?_,
    fun pre p0 p1 p2 op bytes hlen hp0 hu hother => ?_⟩
  · rw [decode_after_prefixes pre b bytes hb hf, if_neg (by omega)]
    exact (if_neg hvex).trans (if_neg hevex)
  · have hnamed : ¬ vexNamed b1 b2 op := by unfold vexNamed; tauto
    rw [decode_vex, vexDecoded, if_neg (by omega), if_neg hnamed]
  · have hnamed : ¬ evexNamed p0 p1 op := by unfold evexNamed; tauto
    have hreserved : ¬ evexReserved p0 p1 = true := by rw [evexReserved, hp0, hu]; decide
    rw [decode_evex, evexDecoded, if_neg (by omega), if_neg hnamed, if_neg hreserved]

/-! ## Forbidden bytes in front (30_encoding.md R301) -/

/-- Legal and forbidden bytes at the front are passed over; a forbidden one is noted. -/
theorem scanPrefixes_append {front rest : List Byte}
    (hfront : ∀ p ∈ front, (legacyPrefixOf p).isSome = true ∨ forbiddenPrefix p = true)
    (hrest : scanPrefixes rest = ([], false, rest)) :
    scanPrefixes (front ++ rest) = (front.filterMap legacyPrefixOf, front.any forbiddenPrefix, rest) := by
  have hlegal : ∀ p : Byte, (legacyPrefixOf p).isSome = true → forbiddenPrefix p = false := by decide
  induction front with
  | nil => exact hrest
  | cons p front ih =>
    have ih := ih fun q hq => hfront q (List.mem_cons_of_mem _ hq)
    rw [List.cons_append, scanPrefixes, List.any_cons]
    cases hp : legacyPrefixOf p with
    | some l =>
      have := hlegal p (by rw [hp]; rfl)
      simp [ih, this, hp]
    | none =>
      have := hfront p List.mem_cons_self
      rw [hp] at this
      simp [ih, hp, this.resolve_left (by simp)]

/-- What a forbidden byte among those in front does: the verdict is #UD, unless it is "too long". -/
theorem decode_after_forbidden {front : List Byte}
    (hfront : ∀ p ∈ front, (legacyPrefixOf p).isSome = true ∨ forbiddenPrefix p = true)
    (hforbidden : front.any forbiddenPrefix = true) :
    ∃ pre,
      (∀ bs, decode (front ++ 0xC4#8 :: bs) = if 15 ≤ front.length ∨
        decodeVex (decide (15 ≤ front.length + 1 + bs.length)) pre (bs.take (14 - front.length)) = .tooLong
        then .tooLong else .undefinedOpcode) ∧
      (∀ bs, decode (front ++ 0x62#8 :: bs) = if 15 ≤ front.length ∨
        decodeEvex (decide (15 ≤ front.length + 1 + bs.length)) pre (bs.take (14 - front.length)) = .tooLong
        then .tooLong else .undefinedOpcode) := by
  by_cases hlong : 15 ≤ front.length
  · have htoo (b : Byte) (bs : List Byte) : decode (front ++ b :: bs) = .tooLong := by
      have hwin : (front ++ b :: bs).take 15 = front.take 15 ++ [] := by
        rw [List.take_append_of_le_length hlong, List.append_nil]
      have hscan := scanPrefixes_append (front := front.take 15) (rest := [])
        (fun p hp => hfront p (List.mem_of_mem_take hp)) rfl
      have hlen : 15 ≤ (front ++ b :: bs).length := by rw [List.length_append]; omega
      simp only [decode, Config.maxInsnLen, hwin, hscan, hlen, decide_true, ranOut, if_true]
    exact ⟨[], fun bs => by rw [htoo, if_pos (.inl hlong)], fun bs => by rw [htoo, if_pos (.inl hlong)]⟩
  · have hwin (b : Byte) (bs : List Byte) :
        (front ++ b :: bs).take 15 = front ++ b :: bs.take (14 - front.length) := by
      rw [List.take_append, List.take_of_length_le (by omega), show 15 - front.length = 14 - front.length + 1 by omega,
        List.take_succ_cons]
    have hlen (b : Byte) (bs : List Byte) : (front ++ b :: bs).length = front.length + 1 + bs.length := by
      rw [List.length_append, List.length_cons]; omega
    refine ⟨front.filterMap legacyPrefixOf, fun bs => ?_, fun bs => ?_⟩
    · have hscan (tl : List Byte) := scanPrefixes_append (rest := 0xC4#8 :: tl) hfront
        (by simp [scanPrefixes, legacyPrefixOf_vexByte, forbiddenPrefix_vexByte])
      simp only [decode, Config.maxInsnLen, hwin, hscan, hlen, hforbidden, if_true, Decoded.afterForbidden_eq, hlong,
        false_or]
    · have hscan (tl : List Byte) := scanPrefixes_append (rest := 0x62#8 :: tl) hfront
        (by simp [scanPrefixes, legacyPrefixOf_evexByte, forbiddenPrefix_evexByte])
      simp only [decode, Config.maxInsnLen, hwin, hscan, hlen, hforbidden, if_true, Decoded.afterForbidden_eq, hlong,
        false_or]
      rfl

/-- In the window after `k` bytes, VEX bytes are too long exactly when their verdict is. -/
theorem decodeVex_tooLong_iff {k : Nat} {pre : List LegacyPrefix} {b1 b2 op : Byte} {tl : List Byte} :
    (15 ≤ k ∨ decodeVex (decide (15 ≤ k + 1 + (b1 :: b2 :: op :: tl).length)) pre
      ((b1 :: b2 :: op :: tl).take (14 - k)) = .tooLong) ↔ vexDecoded k pre b1 b2 op tl = .tooLong := by
  have hlen : k + 1 + (b1 :: b2 :: op :: tl).length = k + 4 + tl.length := by
    simp only [List.length_cons]; omega
  by_cases hk : k ≤ 14
  · rw [hlen, decodeVex_window hk, or_iff_right (by omega)]
  · exact iff_of_true (.inl (by omega)) (vexDecoded_eq_tooLong_iff.2 (.inl (by omega)))

theorem decodeVex_tooLong {k : Nat} {pre : List LegacyPrefix} {bs : List Byte}
    (h : 15 ≤ k ∨ decodeVex (decide (15 ≤ k + 1 + bs.length)) pre (bs.take (14 - k)) = .tooLong) :
    15 ≤ k + 1 + bs.length ∧ 15 < k + 4 + tailLength (bs.drop 3) := by
  have htail := two_le_tailLength (bs.drop 3)
  by_cases hshort : bs.length < 3
  · rw [decodeVex_short _ _ (by rw [List.length_take]; omega)] at h
    by_cases hfull : 15 ≤ k + 1 + bs.length
    · omega
    · rw [decide_eq_false hfull] at h
      exact absurd h (by simp [ranOut]; omega)
  · match bs, hshort with
    | b1 :: b2 :: op :: tl, _ =>
      rw [decodeVex_tooLong_iff, vexDecoded_eq_tooLong_iff] at h
      simp only [List.length_cons, List.drop_succ_cons, List.drop_zero] at htail ⊢
      omega
    | [], hshort | [_], hshort | [_, _], hshort => exact absurd hshort (by simp)

/-- In the window after `k` bytes, EVEX bytes are too long exactly when their verdict is. -/
theorem decodeEvex_tooLong_iff {k : Nat} {pre : List LegacyPrefix} {p0 p1 p2 op : Byte} {tl : List Byte} :
    (15 ≤ k ∨ decodeEvex (decide (15 ≤ k + 1 + (p0 :: p1 :: p2 :: op :: tl).length)) pre
      ((p0 :: p1 :: p2 :: op :: tl).take (14 - k)) = .tooLong) ↔ evexDecoded k pre p0 p1 p2 op tl = .tooLong := by
  have hlen : k + 1 + (p0 :: p1 :: p2 :: op :: tl).length = k + 5 + tl.length := by
    simp only [List.length_cons]; omega
  by_cases hk : k ≤ 14
  · rw [hlen, decodeEvex_window hk, or_iff_right (by omega)]
  · exact iff_of_true (.inl (by omega)) (evexDecoded_eq_tooLong_iff.2 (.inl (by omega)))

theorem decodeEvex_tooLong {k : Nat} {pre : List LegacyPrefix} {bs : List Byte}
    (h : 15 ≤ k ∨ decodeEvex (decide (15 ≤ k + 1 + bs.length)) pre (bs.take (14 - k)) = .tooLong) :
    15 ≤ k + 1 + bs.length ∧ 15 < k + 5 + tailLength (bs.drop 4) := by
  have htail := two_le_tailLength (bs.drop 4)
  by_cases hshort : bs.length < 4
  · rw [decodeEvex_short _ _ (by rw [List.length_take]; omega)] at h
    by_cases hfull : 15 ≤ k + 1 + bs.length
    · omega
    · rw [decide_eq_false hfull] at h
      exact absurd h (by simp [ranOut]; omega)
  · match bs, hshort with
    | p0 :: p1 :: p2 :: op :: tl, _ =>
      rw [decodeEvex_tooLong_iff, evexDecoded_eq_tooLong_iff] at h
      simp only [List.length_cons, List.drop_succ_cons, List.drop_zero] at htail ⊢
      omega
    | [], hshort | [_], hshort | [_, _], hshort | [_, _, _], hshort => exact absurd hshort (by simp)

/-- Settles O9: the scan notes the forbidden byte and goes on, and the note turns every verdict but "too long" into
#UD. -/
theorem forbiddenPrefixIsInvalid : Obligations.ForbiddenPrefixIsInvalid := by
  intro ps qs f hps hf
  have hfront : ∀ p ∈ ps ++ f :: qs, (legacyPrefixOf p).isSome = true ∨ forbiddenPrefix p = true := by
    intro p hp
    rw [List.mem_append, List.mem_cons, or_left_comm] at hp
    rcases hp with rfl | hp
    · exact .inr hf
    · exact hps p (List.mem_append.2 hp)
  have hlen : (ps ++ f :: qs).length = ps.length + qs.length + 1 := by rw [List.length_append, List.length_cons]; omega
  obtain ⟨pre, hvex, hevex⟩ := decode_after_forbidden hfront (List.any_eq_true.2 ⟨f, by simp, hf⟩)
  rw [hlen] at hvex hevex
  refine ⟨fun bytes => ?_, fun bytes => ?_, fun b1 b2 bytes hmap hpp hfull htail => ?_,
    fun p0 p1 p2 op bytes hmm hpp hop hfull htail => ?_⟩
  · rw [hvex]
    split
    · next h =>
      obtain ⟨hfull, htail⟩ := decodeVex_tooLong h
      exact .inr ⟨by omega, by omega, rfl⟩
    · exact .inl rfl
  · rw [hevex]
    split
    · next h =>
      obtain ⟨hfull, htail⟩ := decodeEvex_tooLong h
      exact .inr ⟨by omega, by omega, rfl⟩
    · exact .inl rfl
  · rw [hvex, if_pos (decodeVex_tooLong_iff.2 (vexDecoded_eq_tooLong_iff.2 (.inr ⟨⟨hmap, hpp, rfl⟩, ?_⟩)))]
    omega
  · rw [hevex, if_pos (decodeEvex_tooLong_iff.2 (evexDecoded_eq_tooLong_iff.2 (.inr ⟨⟨hmm, hpp, hop⟩, ?_⟩)))]
    omega

/-- Settles O12: the decoder run on the words of 30_encoding.md R304, R306, R311 and R312. -/
theorem specWordsDecode : Obligations.SpecWordsDecode := by
  refine ⟨?_, ?_, ?_, ?_, ?_, ?_, ?_⟩ <;> decide

end Sys2Proof
end

section
/-! The step: what it does with each verdict of the decoder, what it keeps, and where it stops (40_vextractf.md R405;
60_exceptions.md sections 4 and 5). -/

namespace Sys2Proof.Machine

/-! ## From the verdict to the outcome -/

/-- Settles O13: the step's own test of the recorded fault and of the mode, and nothing before `exec`. -/
theorem stepRunsDecodedInstruction : Obligations.StepRunsDecodedInstruction := by
  intro s i hf hm hdec
  simp only [step, hf, hm, hdec, bne_self_eq_false, Bool.false_eq_true, if_false]

theorem step_undefinedOpcode {s : State} (hf : s.fault = none) (hm : s.mode = .long64)
    (hdec : decode (fetchWindow s) = .undefinedOpcode) : step s = raise ud := by
  simp only [step, hf, hm, hdec, bne_self_eq_false, Bool.false_eq_true, if_false]

theorem step_tooLong {s : State} (hf : s.fault = none) (hm : s.mode = .long64)
    (hdec : decode (fetchWindow s) = .tooLong) : step s = raise gp0 := by
  simp only [step, hf, hm, hdec, bne_self_eq_false, Bool.false_eq_true, if_false]

theorem step_outOfScope {s : State} (hf : s.fault = none) (hm : s.mode = .long64)
    (hdec : decode (fetchWindow s) = .outOfScope) : step s = .refused .outOfScope := by
  simp only [step, hf, hm, hdec, bne_self_eq_false, Bool.false_eq_true, if_false]

theorem step_truncated {s : State} (hf : s.fault = none) (hm : s.mode = .long64)
    (hdec : decode (fetchWindow s) = .truncated) :
    step s = fetchStop s (s.rip + BitVec.ofNat 64 (fetchWindow s).length) := by
  simp only [step, hf, hm, hdec, bne_self_eq_false, Bool.false_eq_true, if_false]

theorem fetchStop_eq (s : State) (a : Word) :
    fetchStop s a = if a.toNat ∈ s.stored then .refused (.selfModifying a) else .fault (.fetchUnwritten a) := by
  simp only [fetchStop, List.contains_iff_mem]

/-- Settles O14: one equation of the step per verdict. -/
theorem stepStopsOnOtherVerdicts : Obligations.StepStopsOnOtherVerdicts := by
  intro s hf hm
  refine ⟨step_undefinedOpcode hf hm, step_tooLong hf hm, step_outOfScope hf hm, fun hdec => ?_⟩
  intro a
  rw [step_truncated hf hm hdec, fetchStop_eq]
  split <;> rfl

/-- The step over bytes whose verdict is #UD, or #GP(0) for their length. -/
theorem step_of_verdict {s : State} {p : Prop} [Decidable p] (hf : s.fault = none) (hm : s.mode = .long64)
    (hdec : decode (fetchWindow s) = if p then .tooLong else .undefinedOpcode) :
    step s = if p then raise gp0 else raise ud := by
  by_cases h : p
  · rw [if_pos h] at hdec ⊢
    exact step_tooLong hf hm hdec
  · rw [if_neg h] at hdec ⊢
    exact step_undefinedOpcode hf hm hdec

/-- The step over VEX bytes of VEXTRACTF128 that break a rule: #UD, and #GP(0) exactly when they are too long. -/
theorem step_of_vexBad {s : State} {pre : List LegacyPrefix} {b1 b2 : Byte} {bytes : List Byte} (hf : s.fault = none)
    (hm : s.mode = .long64)
    (hfetch : fetchWindow s = pre.map LegacyPrefix.byte ++ 0xC4#8 :: b1 :: b2 :: 0x19#8 :: bytes)
    (hmap : b1.extractLsb' 0 5 = 0b00011#5) (hpp : b2.extractLsb' 0 2 = 0b01#2) (hbad : vexBad b2 = true) :
    step s = if 15 ≤ (fetchWindow s).length ∧ 15 < pre.length + 4 + tailLength bytes then raise gp0 else raise ud := by
  have hlen : (fetchWindow s).length = pre.length + 4 + bytes.length := by
    simp only [hfetch, List.length_append, List.length_map, List.length_cons]; omega
  rw [hlen]
  refine step_of_verdict hf hm ?_
  rw [hfetch, decode_vex]
  exact vexDecoded_of_bad pre bytes ⟨hmap, hpp, rfl⟩ hbad

/-- Settles O6: L = 0 is a rule of the VEX form, checked before any operand. -/
theorem vexLengthZeroRaisesInvalidOpcode : Obligations.VexLengthZeroRaisesInvalidOpcode :=
  fun _ _ _ _ _ hf hm hfetch hmap hpp hl => step_of_vexBad hf hm hfetch hmap hpp (vexBad_iff.2 (.inl hl))

/-- Settles O7: vvvv is a rule of the VEX form and of the EVEX form alike. -/
theorem vvvvNotOnesRaisesInvalidOpcode : Obligations.VvvvNotOnesRaisesInvalidOpcode := by
  refine ⟨fun s pre b1 b2 bytes hf hm hfetch hmap hpp hv => ?_,
    fun s pre p0 p1 p2 op bytes hf hm hfetch hmm hpp hop hv => ?_⟩
  · exact step_of_vexBad hf hm hfetch hmap hpp (vexBad_iff.2 (.inr (.inl hv)))
  · have hlen : (fetchWindow s).length = pre.length + 5 + bytes.length := by
      simp only [hfetch, List.length_append, List.length_map, List.length_cons]; omega
    rw [hlen]
    refine step_of_verdict hf hm ?_
    rw [hfetch, decode_evex]
    exact evexDecoded_of_bad pre bytes ⟨hmm, hpp, hop⟩ (.inr (evexBad_iff.2 (.inr (.inl hv))))

/-! ## What every step keeps -/

/-- An instruction that completes keeps the canonical form: a register form leaves memory and the note alone, a memory
form writes bytes at linear addresses and notes them. -/
theorem exec_keeps_wf {i : Instr} {s t : State} (hs : s.wf = true) (h : exec i s = .next t) : t.wf = true := by
  obtain ⟨-, -, -, -, -, -, -, hwrite⟩ := exec_next h
  obtain ⟨d, -, rfl⟩ | ⟨m, -, -, rfl⟩ := hwrite
  · exact hs
  · exact wf_store (s := s) maskedWrites_addr_lt hs

/-- Settles O20: the step runs one instruction, and every instruction keeps the canonical form. -/
theorem stepKeepsCanonicalForm : Obligations.StepKeepsCanonicalForm := by
  intro s t hs h
  obtain ⟨-, -, i, -, hexec⟩ := step_next h
  exact exec_keeps_wf hs hexec

/-- Settles O21: memory and the note of stores are empty at reset. -/
theorem resetHasCanonicalForm : Obligations.ResetHasCanonicalForm := rfl

theorem sameSystem_exec {i : Instr} {s t : State} (h : exec i s = .next t) : sameSystem s t := by
  obtain ⟨-, -, -, -, -, -, -, hwrite⟩ := exec_next h
  obtain ⟨d, -, rfl⟩ | ⟨m, -, -, rfl⟩ := hwrite <;> simp [sameSystem]

theorem exec_rip {i : Instr} {s t : State} (h : exec i s = .next t) : t.rip = s.rip + BitVec.ofNat 64 i.length := by
  obtain ⟨-, -, -, -, -, -, -, hwrite⟩ := exec_next h
  obtain ⟨d, -, rfl⟩ | ⟨m, -, -, rfl⟩ := hwrite <;> rfl

/-- Settles O22: neither a register write, nor a store, nor the advance of `rip` touches these fields. -/
theorem stepKeepsSystemState : Obligations.StepKeepsSystemState := by
  intro s t h
  obtain ⟨-, -, i, -, hexec⟩ := step_next h
  exact sameSystem_exec hexec

/-- The launch premises read system state alone. -/
theorem launchPremises_congr {s t : State} (h : sameSystem s t) : launchPremises t = launchPremises s := by
  obtain ⟨-, -, -, -, hrflags, -, hcr0, -, hcr4, hxcr0, hmode, hcpl, hfeatures, -, -, hfault⟩ := h
  simp only [launchPremises, osVecEnabled, stateEnabled, realOrVirtual, osxsave, avxStateEnabled, avx512StateEnabled,
    taskSwitched, alignmentChecking, hrflags, hcr0, hcr4, hxcr0, hmode, hcpl, hfeatures, hfault]

/-- Settles O23: the premises read system state, which no step changes. -/
theorem stepKeepsLaunchPremises : Obligations.StepKeepsLaunchPremises := by
  intro s t hs h
  rw [launchPremises_congr (stepKeepsSystemState s t h), hs]

/-- Settles O24: each premise evaluated at the reset values. -/
theorem resetMeetsLaunchPremises : Obligations.ResetMeetsLaunchPremises := by
  refine ⟨rfl, rfl, rfl, ?_, ?_, ?_⟩ <;> decide

theorem placed_iff {n : Nat} {s : State} :
    placed n s = true ↔ canonical s.vaBits s.rip = true ∧ s.rip.toNat + n < 2 ^ 64 ∧
      canonical s.vaBits (s.rip + BitVec.ofNat 64 n) = true := by
  simp only [placed, Bool.and_eq_true, decide_eq_true_eq, and_assoc]

/-- Settles O16: an instruction that completes has passed the check of its placement. -/
theorem stepAdvancesRip : Obligations.StepAdvancesRip := by
  intro s t h
  obtain ⟨-, -, i, hdec, hexec⟩ := step_next h
  obtain ⟨-, -, -, -, -, -, hplaced, -⟩ := exec_next hexec
  obtain ⟨-, hwrap, hcanon⟩ := placed_iff.1 hplaced
  refine ⟨i, hdec, ?_, ?_⟩
  · have hlen : (BitVec.ofNat 64 i.length).toNat = i.length := by
      rw [BitVec.toNat_ofNat, Nat.mod_eq_of_lt (by omega)]
    rw [exec_rip hexec, BitVec.toNat_add, hlen, Nat.mod_eq_of_lt hwrap]
  · rw [exec_rip hexec]
    exact hcanon

/-! ## Fetch -/

theorem fetchByte_eq_some_iff {s : State} {a : Word} {b : Byte} :
    fetchByte s a = some b ↔ a.toNat ∉ s.stored ∧ Memory.read s.mem a.toNat = some b := by
  unfold fetchByte
  split
  · next h => exact iff_of_false (by simp) fun hb => hb.1 (List.contains_iff_mem.1 h)
  · next h => rw [List.contains_iff_mem] at h; exact (and_iff_right h).symm

theorem add_ofNat_succ (a : Word) (j : Nat) : a + BitVec.ofNat 64 (j + 1) = a + 1 + BitVec.ofNat 64 j := by
  rw [Nat.add_comm, BitVec.ofNat_add, ← BitVec.add_assoc]
  rfl

/-- Byte `j` of the bytes fetched from `a` is the byte of program text at `a + j`. -/
theorem fetchByte_of_lt_length {s : State} {n j : Nat} {a : Word} (hj : j < (fetchBytes s a n).length) :
    fetchByte s (a + BitVec.ofNat 64 j) = (fetchBytes s a n)[j]? := by
  induction n generalizing a j with
  | zero => exact absurd hj (Nat.not_lt_zero j)
  | succ n ih =>
    unfold fetchBytes at hj ⊢
    cases hb : fetchByte s a with
    | none => rw [hb] at hj; exact absurd hj (Nat.not_lt_zero j)
    | some b =>
      rw [hb] at hj
      cases j with
      | zero => rw [show a + BitVec.ofNat 64 0 = a from BitVec.add_zero a, hb]; rfl
      | succ j =>
        rw [add_ofNat_succ, List.getElem?_cons_succ]
        exact ih (Nat.lt_of_succ_lt_succ hj)

/-- Settles O15: the instruction is no longer than the bytes fetched, and each of these is program text. -/
theorem stepNeverRunsStoredBytes : Obligations.StepNeverRunsStoredBytes := by
  intro s t h
  obtain ⟨-, -, i, hdec, -⟩ := step_next h
  refine ⟨i, hdec, fun j hj => ?_⟩
  have hlt : j < (fetchWindow s).length := Nat.lt_of_lt_of_le hj (decodedInstructionIsWellFormed _ i hdec).2
  have hbyte := fetchByte_of_lt_length hlt
  rw [show fetchBytes s s.rip Config.maxInsnLen = fetchWindow s from rfl, List.getElem?_eq_getElem hlt] at hbyte
  rw [List.getElem?_eq_getElem hlt]
  exact fetchByte_eq_some_iff.1 hbyte

/-- Placing bytes changes memory and the note of stores alone. -/
theorem placeBytes_rip (s : State) (a : Word) (bs : List Byte) : (placeBytes s a bs).rip = s.rip := by
  induction bs generalizing s a with
  | nil => rfl
  | cons b bs ih => exact ih _ _

theorem mem_dropAddr {as : List Nat} {a x : Nat} : x ∈ dropAddr as a ↔ x ∈ as ∧ x ≠ a := by
  simp [dropAddr]

/-- Placing bytes elsewhere leaves the byte at `x`. -/
theorem fetchByte_placeBytes_ne {s : State} {a x : Word} {bs : List Byte}
    (h : ∀ j < bs.length, x ≠ a + BitVec.ofNat 64 j) : fetchByte (placeBytes s a bs) x = fetchByte s x := by
  induction bs generalizing s a with
  | nil => rfl
  | cons b bs ih =>
    have hne : x ≠ a := fun e => h 0 (by simp) (by rw [e]; simp)
    have hrest : ∀ j < bs.length, x ≠ a + 1 + BitVec.ofNat 64 j := by
      intro j hj e
      refine h (j + 1) (by simpa using hj) ?_
      rw [e, add_ofNat_succ]
    have hnat : x.toNat ≠ a.toNat := fun e => hne (BitVec.eq_of_toNat_eq e)
    rw [placeBytes, ih hrest]
    simp [fetchByte, mem_dropAddr, hnat, Memory.read_write_ne s.mem b hnat]

/-- Bytes placed at `a` are fetched from `a`. -/
theorem fetchBytes_placeBytes {s : State} {a : Word} {bs : List Byte} (h : bs.length ≤ 2 ^ 64) :
    fetchBytes (placeBytes s a bs) a bs.length = bs := by
  induction bs generalizing s a with
  | nil => rfl
  | cons b bs ih =>
    have hlen : bs.length < 2 ^ 64 := by simpa using h
    have hfirst : ∀ j < bs.length, a ≠ a + 1 + BitVec.ofNat 64 j := by
      intro j hj e
      have haddr : a + BitVec.ofNat 64 0 = a + BitVec.ofNat 64 (j + 1) := by
        rw [add_ofNat_succ, ← e]; exact BitVec.add_zero a
      exact absurd (operand_addr_inj (by decide) (by omega) (congrArg BitVec.toNat haddr)) (by omega)
    have hbyte : fetchByte (placeBytes s a (b :: bs)) a = some b := by
      rw [placeBytes, fetchByte_placeBytes_ne hfirst, fetchByte_eq_some_iff]
      exact ⟨fun hmem => (mem_dropAddr.1 hmem).2 rfl, Memory.read_write_same _ _ _⟩
    rw [List.length_cons, fetchBytes, hbyte]
    exact congrArg (b :: ·) (ih (by omega))

/-- Settles O19: the 15 bytes placed at `rip` are read back from there. -/
theorem loadedWordIsFetched : Obligations.LoadedWordIsFetched := by
  intro s nbits w
  have hlen : (tableBytes nbits w).length = Config.maxInsnLen := by simp [tableBytes]
  rw [fetchWindow, State.withFetchWord, placeBytes_rip, ← hlen]
  exact fetchBytes_placeBytes (by rw [hlen]; decide)

/-! ## Faults and other modes -/

/-- A fault of kind #PF carries its address. -/
theorem pageFault_addr_of_step {s : State} {r : FaultRecord} (hf : s.fault = none) (h : step s = .fault (.raised r))
    (hk : r.kind = .pageFault) : ∃ a, r.addr = some a := by
  rcases step_fault hf h with h | h | ⟨a, h⟩ | ⟨i, h⟩
  · cases h; cases hk
  · cases h; cases hk
  · cases h
  · rcases exec_cases i s with ⟨e, -⟩ | ⟨e, -⟩ | e | e | ⟨e, -⟩ | ⟨m, -, e | e | ⟨code, b, -, -, e⟩⟩ | ⟨t, e⟩ <;>
      cases e.symm.trans h
    · cases hk
    · cases hk
    · cases hk
    · cases hk
    · cases hk
    · exact ⟨_, rfl⟩

theorem recordFault_cr2_of_pageFault {s : State} {r : FaultRecord} {a : Word} (hk : r.kind = .pageFault)
    (ha : r.addr = some a) : (recordFault r s).cr2 = a := by
  rw [recordFault_cr2, hk, ha]

theorem recordFault_cr2_of_ne {s : State} {r : FaultRecord} (hk : r.kind ≠ .pageFault) :
    (recordFault r s).cr2 = s.cr2 := by
  rw [recordFault_cr2]
  split
  · next h _ => exact absurd h hk
  · rfl

theorem step_of_fault {s : State} {r : FaultRecord} (hf : s.fault = some r) : step s = raise r := by
  simp only [step, hf]

/-- A machine with a recorded fault stays as it is. -/
theorem recordFault_recordFault (r : FaultRecord) (s : State) : recordFault r (recordFault r s) = recordFault r s := by
  obtain ⟨kind, code, addr⟩ := r
  cases kind <;> cases addr <;> rfl

/-- Settles O17: the record and CR2 are all that `recordFault` writes, and the step of a machine with a record is that
fault again. -/
theorem faultIsPreciseAndTerminal : Obligations.FaultIsPreciseAndTerminal := by
  intro s r hf h
  have hafter : afterStep s = recordFault r s := by rw [afterStep, h]
  have hagain : step (recordFault r s) = raise r := step_of_fault (recordFault_fault s r)
  rw [hafter]
  refine ⟨⟨(recordFault r s).cr2, rfl, fun hk => ?_, recordFault_cr2_of_ne⟩, hagain, ?_⟩
  · obtain ⟨a, ha⟩ := pageFault_addr_of_step hf h hk
    rw [ha, recordFault_cr2_of_pageFault hk ha]
  · rw [afterStep, hagain]
    exact recordFault_recordFault r s

end Sys2Proof.Machine
end

section
/-! Where a meaning stops: the checks in their order (60_exceptions.md R604 to R607, R620), the operand's address and
Access, the closed list of faults, and the refusals. -/

namespace Sys2Proof.Machine

/-! ## The checks, in order -/

theorem mode32_iff {s : State} : mode32 s = true ↔ s.mode = .legacyProtected ∨ s.mode = .compatibility := by
  simp only [mode32, Bool.or_eq_true, beq_iff_eq]

theorem mode32_of_long64 {s : State} (h : s.mode = .long64) : mode32 s = false := by rw [mode32, h]; rfl

theorem checked_of_mode32 {n : Needs} {s : State} (go : Result) (h : mode32 s = true) :
    checked n s go = .refused .modeOutOfScope := if_pos h

theorem checked_of_long {n : Needs} {s : State} (go : Result) (hm : mode32 s = false)
    (h : Config.maxInsnLen < n.len) : checked n s go = raise gp0 := by
  simp only [checked, hm, h, Bool.false_eq_true, if_false, if_true]

/-- An illegal encoding, a missing CPUID flag and disabled vector state all raise #UD. -/
theorem checked_of_invalid {n : Needs} {s : State} (go : Result) (hm : mode32 s = false)
    (hlen : n.len ≤ Config.maxInsnLen)
    (h : n.legal = false ∨ n.features = false ∨ stateEnabled n.evex s = false) : checked n s go = raise ud := by
  simp only [checked, hm, Nat.not_lt.2 hlen, Bool.false_eq_true, if_false]
  rcases h with h | h | h <;> simp only [h, Bool.not_false, if_true, ite_self]

theorem checked_of_taskSwitched {n : Needs} {s : State} (go : Result) (hm : mode32 s = false)
    (hlen : n.len ≤ Config.maxInsnLen) (hlegal : n.legal = true) (hfeatures : n.features = true)
    (hstate : stateEnabled n.evex s = true) (hts : taskSwitched s = true) : checked n s go = raise nm := by
  simp only [checked, hm, Nat.not_lt.2 hlen, hlegal, hfeatures, hstate, hts, Bool.not_true, Bool.false_eq_true,
    if_false, if_true]

theorem checked_of_not_placed {n : Needs} {s : State} (go : Result) (hm : mode32 s = false)
    (hlen : n.len ≤ Config.maxInsnLen) (hlegal : n.legal = true) (hfeatures : n.features = true)
    (hstate : stateEnabled n.evex s = true) (hts : taskSwitched s = false) (hplaced : placed n.len s = false) :
    checked n s go = .refused .placement := by
  simp only [checked, hm, Nat.not_lt.2 hlen, hlegal, hfeatures, hstate, hts, hplaced, Bool.not_true, Bool.not_false,
    Bool.false_eq_true, if_false, if_true]

/-- Every meaning is its checks, and then something. -/
theorem exec_checked (i : Instr) (s : State) : ∃ go, exec i s = checked (needs i s) s go := by
  rcases destReg_or_destMem i with ⟨d, hd⟩ | ⟨m, hm⟩
  · exact ⟨_, exec_reg s hd⟩
  · exact ⟨_, exec_mem s hm⟩

theorem stateEnabled_eq {s : State} (e : Bool) (h : s.mode = .long64) :
    stateEnabled e s = (osxsave s && avxStateEnabled s && (!e || avx512StateEnabled s)) := by
  have hno : realOrVirtual s = false := by rw [realOrVirtual, h]; rfl
  rw [stateEnabled, hno]
  rfl

theorem osVecEnabled_iff {s : State} {e : Bool} :
    osVecEnabled e s = true ↔ s.mode = .long64 ∧ stateEnabled e s = true ∧ taskSwitched s = false := by
  simp only [osVecEnabled, Bool.and_eq_true, beq_iff_eq, Bool.not_eq_true', and_assoc]

/-- Settles O10: the decoder's verdict on an encoding over 15 bytes, the length check of every meaning, and the step. -/
theorem longInstructionIsGeneralProtection : Obligations.LongInstructionIsGeneralProtection := by
  refine ⟨fun i rest hwf hlen => ?_, fun i s hlen hm => ?_, fun s hf hm hdec => step_tooLong hf hm hdec⟩
  · rw [decode_encode i rest hwf, if_pos hlen]
  · obtain ⟨go, h⟩ := exec_checked i s
    exact h.trans (checked_of_long go hm hlen)

/-- Settles O18: the step's mode check, and in the meanings the first check or the one of the enabled state. -/
theorem otherModes : Obligations.OtherModes := by
  refine ⟨fun s hf hm => ?_, fun i s hm => ?_, fun i s hm hlen => ?_⟩
  · simp only [step, hf, bne_iff_ne, ne_eq, hm, not_false_eq_true, if_true]
  · obtain ⟨go, h⟩ := exec_checked i s
    exact h.trans (checked_of_mode32 go (mode32_iff.2 hm))
  · have h32 : mode32 s = false := by rcases hm with hm | hm <;> rw [mode32, hm] <;> rfl
    have hstate : stateEnabled i.evex s = false := by
      rcases hm with hm | hm <;> simp [stateEnabled, realOrVirtual, hm]
    obtain ⟨go, h⟩ := exec_checked i s
    exact h.trans (checked_of_invalid go h32 hlen (.inr (.inr hstate)))

/-- Settles O47: the CPUID flags are one of the checks that raise #UD. -/
theorem missingFeatureRaisesInvalidOpcode : Obligations.MissingFeatureRaisesInvalidOpcode := by
  intro i s hm hlen hfeatures
  obtain ⟨go, h⟩ := exec_checked i s
  exact h.trans (checked_of_invalid go hm hlen (.inr (.inl hfeatures)))

/-- Settles O49: the legality of zeroing is the first of the checks that raise #UD. -/
theorem illegalZeroingRaisesInvalidOpcode : Obligations.IllegalZeroingRaisesInvalidOpcode := by
  intro i s hm hlen hlegal
  obtain ⟨go, h⟩ := exec_checked i s
  exact h.trans (checked_of_invalid go hm hlen (.inl hlegal))

/-- Settles O48: in 64-bit mode the enabled state is these bits of CR4 and XCR0, and CR0.TS is checked after it. -/
theorem disabledStateFaults : Obligations.DisabledStateFaults := by
  intro i s hmode hlen
  have hm := mode32_of_long64 hmode
  obtain ⟨go, h⟩ := exec_checked i s
  refine ⟨fun hoff => ?_, fun hosxsave havx havx512 hfeatures hlegal hts => ?_⟩
  · have hstate : stateEnabled i.evex s = false := by
      rw [stateEnabled_eq _ hmode]
      rcases hoff with hoff | hoff | ⟨hevex, hoff⟩
      · rw [osxsave, hoff]; rfl
      · rw [avxStateEnabled, beq_false_of_ne hoff, Bool.and_false, Bool.false_and]
      · rw [hevex, avx512StateEnabled, beq_false_of_ne hoff, Bool.not_true, Bool.or_false, Bool.and_false]
    exact h.trans (checked_of_invalid go hm hlen (.inr (.inr hstate)))
  · have hstate : stateEnabled i.evex s = true := by
      rw [stateEnabled_eq _ hmode, osxsave, hosxsave, avxStateEnabled, havx]
      cases hevex : i.evex with
      | false => rfl
      | true => rw [avx512StateEnabled, havx512 hevex]; rfl
    exact h.trans (checked_of_taskSwitched go hm hlen hlegal hfeatures hstate hts)

/-! ## What a meaning can answer -/

/-- Settles O53: the outcomes of a meaning, one by one. -/
theorem faultListIsClosed : Obligations.FaultListIsClosed := by
  intro i s f h
  rcases exec_cases i s with ⟨e, -⟩ | ⟨e, -⟩ | e | e | ⟨e, -⟩ | ⟨m, hm, e | e | ⟨code, b, -, hcode, e⟩⟩ | ⟨t, e⟩ <;>
    cases e.symm.trans h
  · exact .inr (.inr (.inl rfl))
  · exact .inl rfl
  · exact .inr (.inl rfl)
  · exact .inr (.inr (.inr (.inl ⟨rfl, Option.isSome_iff_exists.2 ⟨m, hm⟩⟩)))
  · exact .inr (.inr (.inl rfl))
  · exact .inr (.inr (.inr (.inr ⟨code, _, rfl, hcode, Option.isSome_iff_exists.2 ⟨m, hm⟩⟩)))

/-- Settles O52: after the checks a register form completes. -/
theorem registerFormHasNoMemoryFault : Obligations.RegisterFormHasNoMemoryFault := by
  intro i d s f hd h
  rw [exec_reg s hd] at h
  rcases checked_cases (needs i s) s _ with ⟨e, -⟩ | ⟨e, hlen⟩ | e | e | ⟨e, -⟩ | e <;> cases e.symm.trans h
  · exact .inr (.inr ⟨rfl, hlen⟩)
  · exact .inl rfl
  · exact .inr (.inl rfl)

/-- Settles O54: the two refusals among the outcomes of a meaning; the second is the last of the checks. -/
theorem refusalsOfMeanings : Obligations.RefusalsOfMeanings := by
  refine ⟨fun i s r h => ?_, fun i s hvec hfeatures hlegal hlen hplaced => ?_⟩
  · rcases exec_cases i s with ⟨e, hm⟩ | ⟨e, -⟩ | e | e | ⟨e, hplaced⟩ | ⟨m, -, e | e | ⟨code, b, -, -, e⟩⟩ | ⟨t, e⟩ <;>
      cases e.symm.trans h
    · exact .inl ⟨rfl, mode32_iff.1 hm⟩
    · refine .inr ⟨rfl, ?_⟩
      rw [← Bool.not_eq_true, placed_iff] at hplaced
      simp only [← Bool.not_eq_true, ← Nat.not_lt]
      tauto
  · obtain ⟨hmode, hstate, hts⟩ := osVecEnabled_iff.1 hvec
    obtain ⟨go, h⟩ := exec_checked i s
    exact h.trans (checked_of_not_placed go (mode32_of_long64 hmode) hlen hlegal hfeatures hstate hts hplaced)

/-! ## Canonical addresses (20_memory.md R225) -/

theorem getLsbD_sshiftRight_word (a : Word) (n : Nat) {k : Nat} (hk : k < 64) :
    (a.sshiftRight n).getLsbD k = if n + k < 64 then a.getLsbD (n + k) else a.getLsbD 63 := by
  rw [BitVec.getLsbD_sshiftRight, BitVec.msb_eq_getLsbD_last, decide_eq_false (Nat.not_le.2 hk)]
  rfl

/-- Settles O58: the address shifted right by VA_BITS - 1 is all zeros or all ones. -/
theorem canonicalAddressBits : Obligations.CanonicalAddressBits := by
  intro vaBits a
  have hshift : canonical vaBits a = true ↔ a.sshiftRight (vaBits - 1) = 0#64 ∨
      a.sshiftRight (vaBits - 1) = BitVec.allOnes 64 := by
    simp only [canonical, Bool.or_eq_true, beq_iff_eq]
  have htop : (a.sshiftRight (vaBits - 1)).getLsbD 63 = a.getLsbD 63 := by
    rw [getLsbD_sshiftRight_word a _ (by decide)]
    split
    · next h => rw [show vaBits - 1 + 63 = 63 by omega]
    · rfl
  rw [hshift]
  constructor
  · intro h k hlo hk
    have hbit : (a.sshiftRight (vaBits - 1)).getLsbD (k - (vaBits - 1)) = a.getLsbD k := by
      rw [getLsbD_sshiftRight_word a _ (by omega), if_pos (by omega), show vaBits - 1 + (k - (vaBits - 1)) = k by omega]
    rw [← hbit, ← htop]
    rcases h with h | h
    · rw [h, BitVec.getLsbD_zero, BitVec.getLsbD_zero]
    · rw [h, BitVec.getLsbD_allOnes, BitVec.getLsbD_allOnes, decide_eq_true (by omega), decide_eq_true (by omega)]
  · intro h
    have hall : ∀ k < 64, (a.sshiftRight (vaBits - 1)).getLsbD k = a.getLsbD 63 := by
      intro k hk
      rw [getLsbD_sshiftRight_word a _ hk]
      split
      · next hin => exact h _ (by omega) hin
      · rfl
    cases hmsb : a.getLsbD 63 with
    | false =>
      refine .inl (BitVec.eq_of_getLsbD_eq fun k hk => ?_)
      rw [hall k hk, hmsb, BitVec.getLsbD_zero]
    | true =>
      refine .inr (BitVec.eq_of_getLsbD_eq fun k hk => ?_)
      rw [hall k hk, hmsb, BitVec.getLsbD_allOnes, decide_eq_true hk]

theorem operandCanonical_iff {s : State} {la : Word} {n : Nat} :
    operandCanonical s la n = true ↔ ∀ b < n, canonical s.vaBits (la + BitVec.ofNat 64 b) = true := by
  simp only [operandCanonical, List.all_eq_true, List.mem_range]

theorem segIsSS_iff {pre : List LegacyPrefix} {m : MemOp} :
    segIsSS pre m = true ↔ fsOrGs pre = false ∧ (baseReg m = some 4#4 ∨ baseReg m = some 5#4) := by
  simp only [segIsSS, Bool.and_eq_true, Bool.not_eq_true', Bool.or_eq_true, beq_iff_eq]

/-- A ready memory form is its store. -/
theorem exec_mem_ready {i : Instr} {m : MemOp} {s : State} (hm : i.destMem = some m) (h : Ready i s) :
    exec i s = storeTo s (segIsSS i.pre m) (destAddr i m s) (i.laneBits / 8)
      (maskedWrites (destAddr i m s) (lane i s) i.elementBits (writesElement i s)) i.length := by
  rw [exec_mem s hm, h.checked_eq]

/-- Settles O50: one byte whose address bits differ is enough for the operand check to fail. -/
theorem nonCanonicalOperandFaults : Obligations.NonCanonicalOperandFaults := by
  intro i m s b k hm hready hb hlo hk hbit
  have hcanon : operandCanonical s (destAddr i m s) (i.laneBits / 8) = false := by
    rw [← Bool.not_eq_true, operandCanonical_iff]
    exact fun hall => hbit ((canonicalAddressBits s.vaBits _).1 (hall b hb) k hlo hk)
  rw [exec_mem_ready hm hready, storeTo, hcanon, if_congr segIsSS_iff rfl rfl]
  rfl

/-- Settles O51: Access is asked once the operand is canonical, and what it reports is a byte of the operand. -/
theorem refusedAccessPageFaults : Obligations.RefusedAccessPageFaults := by
  intro i m s hm hready hcanon hrefused
  have hpos : 0 < i.laneBits / 8 := by rcases laneBits_cases i with h | h <;> rw [h] <;> decide
  cases ha : accessAnswer s (destAddr i m s) (i.laneBits / 8) with
  | ok => exact absurd ha hrefused
  | pageFault code a =>
    obtain ⟨hcode, b, hb, rfl⟩ := accessAnswer_pageFault ha hpos
    refine ⟨code, b, hb, hcode, rfl, ?_⟩
    rw [exec_mem_ready hm hready, storeTo, operandCanonical_iff.2 hcanon, ha]
    rfl

end Sys2Proof.Machine
end

section
/-! The results of the instructions, their frame, and the addresses of their memory operands (40_vextractf.md sections 1
and 2; 20_memory.md sections 1 to 5). -/

namespace Sys2Proof.Machine

/-! ## Stores -/

theorem extractLsb'_extractLsb' {w : Nat} (x : BitVec w) {i j n m : Nat} (h : j + m ≤ n) :
    (x.extractLsb' i n).extractLsb' j m = x.extractLsb' (i + j) m := by
  apply BitVec.eq_of_getLsbD_eq
  intro b hb
  have hin : j + b < n := by omega
  simp [hb, hin, Nat.add_assoc]

/-- Settles O28: byte `b` of element `j` is byte `j * E / 8 + b` of the operand, which belongs to element `j`. -/
theorem maskedStoreByElement : Obligations.MaskedStoreByElement := by
  intro s W E tmp la aaa hW hE
  obtain ⟨hin, hout⟩ := read_store_maskedWrites s tmp la (selected s aaa) hW hE
  refine ⟨fun j hj b hb => ?_, hout⟩
  have hlt : j * (E / 8) + b < W / 8 := by
    rcases hW with rfl | rfl <;> rcases hE with rfl | rfl <;> omega
  have helem : 8 * (j * (E / 8) + b) / E = j := by
    rcases hE with rfl | rfl <;> omega
  have hbyte : (tmp.extractLsb' (j * E) E).extractLsb' (8 * b) 8 = tmp.extractLsb' (8 * (j * (E / 8) + b)) 8 := by
    rw [extractLsb'_extractLsb' tmp (by omega)]
    congr 1
    rcases hE with rfl | rfl <;> omega
  rw [hin _ hlt, helem, hbyte]
  exact if_congr (selected_iff s aaa j) rfl rfl

/-- Settles O29: the byte writes go to different addresses, so each byte stays as it was written. -/
theorem storeIsLittleEndian : Obligations.StoreIsLittleEndian := by
  intro s w n v la i hn hi
  refine read_foldl_write_eq _ _ _ _ (mem_byteWrites.2 ⟨i, hi, rfl⟩) fun c hc haddr => ?_
  obtain ⟨j, hj, rfl⟩ := mem_byteWrites.1 hc
  rw [operand_addr_inj (by omega) (by omega) haddr]

/-! ## Results (40_vextractf.md R410 to R416) -/

/-- The result of a ready register form. -/
theorem Ready.register_result {i : Instr} {d : BitVec 5} {s : State} (h : Ready i s) (hd : i.destReg = some d) :
    ∃ t, exec i s = .next t ∧
      (∀ b < i.laneBits, (readZmm t d).getLsbD b = resultBit s i.mask i.elementBits i.laneStart i.srcReg d b) ∧
      (∀ b, i.laneBits ≤ b → (readZmm t d).getLsbD b = false) ∧
      t.rip = s.rip + BitVec.ofNat 64 i.length := by
  have hexec := (exec_reg s hd).trans (h.checked_eq _)
  obtain ⟨hlow, hhigh⟩ := registerWriteZeroesUpperBits i d s _ hd hexec
  exact ⟨_, hexec, hlow, hhigh, rfl⟩

theorem extractLsb'_lane {i : Instr} (s : State) {b : Nat} (hb : b < i.laneBits / 8) :
    (lane i s).extractLsb' (8 * b) 8 = (readZmm s i.srcReg).extractLsb' (i.laneStart + 8 * b) 8 :=
  extractLsb'_extractLsb' _ (by omega)

/-- The result of a ready memory form whose operand, the `n` bytes at `la`, can be stored. -/
theorem Ready.memory_result {i : Instr} {m : MemOp} {s : State} {la : Word} {n : Nat} (h : Ready i s)
    (hm : i.destMem = some m) (hn : i.laneBits = 8 * n) (hla : destAddr i m s = la)
    (hcanon : operandCanonical s la n = true) (haccess : accessAnswer s la n = .ok) :
    ∃ t, exec i s = .next t ∧
      (∀ b < n, Memory.read t.mem (la + BitVec.ofNat 64 b).toNat =
        resultByte s i.mask i.elementBits i.laneStart i.srcReg la b) ∧
      (∀ a, outside la n a → Memory.read t.mem a = Memory.read s.mem a) ∧
      t.rip = s.rip + BitVec.ofNat 64 i.length := by
  have hn : i.laneBits / 8 = n := by omega
  subst hn hla
  obtain ⟨hin, hout⟩ := read_store_maskedWrites s (lane i s) (destAddr i m s) (writesElement i s) (laneBits_cases i)
    (elementBits_cases i)
  refine ⟨_, (exec_mem_ready hm h).trans (storeTo_eq hcanon haccess), fun b hb => ?_, hout, rfl⟩
  rw [advance_mem, hin b hb, extractLsb'_lane s hb]
  exact if_congr (writesElement_iff i s _) rfl rfl

/-- Settles O30: with no writemask every bit of the result is the source's. -/
theorem vextractf128RegisterResult : Obligations.Vextractf128RegisterResult := by
  intro s pre d src imm h
  obtain ⟨t, hexec, hlow, hhigh, hrip⟩ := h.register_result rfl
  exact ⟨t, hexec, fun b hb => (hlow b hb).trans (if_pos (.inl rfl)), hhigh, hrip⟩

/-- Settles O31: with no writemask every byte of the result is the source's. -/
theorem vextractf128MemoryResult : Obligations.Vextractf128MemoryResult := by
  intro s pre m src imm la h hcanon haccess
  obtain ⟨t, hexec, hin, hout, hrip⟩ := h.memory_result rfl rfl rfl hcanon haccess
  exact ⟨t, hexec, fun b hb => (hin b hb).trans (if_pos (.inl rfl)), hout, hrip⟩

/-- Settles O32: rows 2 and 3 of the general result. -/
theorem vextractf32x4RegisterResult : Obligations.Vextractf32x4RegisterResult :=
  fun _ _ _ _ _ _ => ⟨fun h => h.register_result rfl, fun h => h.register_result rfl⟩

/-- Settles O33: rows 2 and 3 of the general result. -/
theorem vextractf32x4MemoryResult : Obligations.Vextractf32x4MemoryResult :=
  fun _ _ _ _ _ _ hcanon haccess =>
    ⟨fun h => h.memory_result rfl rfl rfl hcanon haccess, fun h => h.memory_result rfl rfl rfl hcanon haccess⟩

/-- Settles O34: rows 4 and 5 of the general result. -/
theorem vextractf64x2RegisterResult : Obligations.Vextractf64x2RegisterResult :=
  fun _ _ _ _ _ _ => ⟨fun h => h.register_result rfl, fun h => h.register_result rfl⟩

/-- Settles O35: rows 4 and 5 of the general result. -/
theorem vextractf64x2MemoryResult : Obligations.Vextractf64x2MemoryResult :=
  fun _ _ _ _ _ _ hcanon haccess =>
    ⟨fun h => h.memory_result rfl rfl rfl hcanon haccess, fun h => h.memory_result rfl rfl rfl hcanon haccess⟩

/-- Settles O36: rows 6 and 7 of the general result. -/
theorem vextract256RegisterResult : Obligations.Vextract256RegisterResult :=
  fun _ _ _ _ _ _ => ⟨fun h => h.register_result rfl, fun h => h.register_result rfl⟩

/-- Settles O37: rows 6 and 7 of the general result. -/
theorem vextract256MemoryResult : Obligations.Vextract256MemoryResult :=
  fun _ _ _ _ _ _ hcanon haccess =>
    ⟨fun h => h.memory_result rfl rfl rfl hcanon haccess, fun h => h.memory_result rfl rfl rfl hcanon haccess⟩

/-- The writes depend on the selection of the operand's own elements. -/
theorem maskedWrites_congr {W : Nat} (la : Word) (tmp : BitVec W) (E : Nat) {sel sel' : Nat → Bool}
    (h : ∀ j < W / E, sel j = sel' j) : maskedWrites la tmp E sel = maskedWrites la tmp E sel' :=
  List.flatMap_congr fun j hj => by rw [h j (List.mem_range.1 hj)]

theorem maskedWrites_none {W : Nat} (la : Word) (tmp : BitVec W) (E : Nat) :
    maskedWrites la tmp E (fun _ => false) = [] :=
  List.flatMap_eq_nil_iff.2 fun _ _ => rfl

/-- Settles O38: no element is selected, so the list of byte writes is empty. -/
theorem zeroMaskStoreWritesNothing : Obligations.ZeroMaskStoreWritesNothing := by
  intro i m s hm h hs haaa hzero
  have hsel : ∀ j < i.laneBits / i.elementBits, writesElement i s j = false := fun j hj => by
    rw [writesElement, hzero j hj, beq_false_of_ne haaa, Bool.or_false]
  rw [exec_mem_ready hm h, storeTo_eq hs.1 hs.2, maskedWrites_congr _ _ _ hsel, maskedWrites_none]
  rfl

/-! ## Frame -/

/-- What a register form that completes has done. -/
theorem exec_reg_next {i : Instr} {d : BitVec 5} {s t : State} (hd : i.destReg = some d) (h : exec i s = .next t) :
    t = advance i.length (writeZmm s d
      (maskedRegResult (readZmm s d) (lane i s) i.elementBits (writesElement i s) i.mask.z)) := by
  rw [exec_reg s hd] at h
  obtain ⟨-, -, -, -, -, -, -, ht⟩ := checked_next h
  cases ht
  rfl

/-- What a memory form that completes has done. -/
theorem exec_mem_next {i : Instr} {m : MemOp} {s t : State} (hm : i.destMem = some m) (h : exec i s = .next t) :
    t = advance i.length (store s (maskedWrites (destAddr i m s) (lane i s) i.elementBits (writesElement i s))) := by
  rw [exec_mem s hm] at h
  obtain ⟨-, -, -, -, -, -, -, ht⟩ := checked_next h
  exact (storeTo_next ht).2.2

/-- Settles O40: one register is written, and `rip` moves. -/
theorem registerFormFrame : Obligations.RegisterFormFrame := by
  intro i d s t hd h
  refine ⟨fun r hr => ?_, sameSystem_exec h, ?_, fun a => ?_⟩
  · rw [exec_reg_next hd h, readZmm_advance, readZmm_writeZmm_ne s _ hr]
  · rw [exec_reg_next hd h, advance_stored, writeZmm_stored]
  · rw [exec_reg_next hd h, advance_mem, writeZmm_mem]

/-- Settles O41: one masked store, whose writes all lie in the operand, and `rip` moves. -/
theorem memoryFormFrame : Obligations.MemoryFormFrame := by
  intro i m s t hm h
  have hW := laneBits_cases i
  have hE := elementBits_cases i
  refine ⟨fun r => ?_, sameSystem_exec h, fun a ha => ?_, fun a => ?_⟩
  · rw [exec_mem_next hm h, readZmm_advance, readZmm_store]
  · rw [exec_mem_next hm h, advance_mem]
    exact (read_store_maskedWrites s (lane i s) _ (writesElement i s) hW hE).2 a ha
  · rw [exec_mem_next hm h, advance_stored]
    exact mem_stored_store_maskedWrites s (lane i s) _ (writesElement i s) hW hE a

end Sys2Proof.Machine
end

section
/-! Two runs compared: the bits of the opmask registers, of memory, of the source register and of the immediate that an
instruction does not read, and the forms that agree without a writemask. -/

namespace Sys2Proof.Machine

/-- The two states agree on all that the checks before and after the operands read. -/
structure SameChecks (s s' : State) : Prop where
  mode : s'.mode = s.mode
  features : s'.features = s.features
  cr0 : s'.cr0 = s.cr0
  cr4 : s'.cr4 = s.cr4
  xcr0 : s'.xcr0 = s.xcr0
  rip : s'.rip = s.rip
  vaBits : s'.vaBits = s.vaBits
  access : s'.access = s.access

theorem checked_of_sameChecks {s s' : State} (h : SameChecks s s') (n : Needs) (go : Result) :
    checked n s' go = checked n s go := by
  have hmode : mode32 s' = mode32 s := by simp only [mode32, h.mode]
  have hstate : stateEnabled n.evex s' = stateEnabled n.evex s := by
    simp only [stateEnabled, realOrVirtual, osxsave, avxStateEnabled, avx512StateEnabled, h.mode, h.cr4, h.xcr0]
  have hts : taskSwitched s' = taskSwitched s := by simp only [taskSwitched, h.cr0]
  have hplaced : placed n.len s' = placed n.len s := by simp only [placed, h.rip, h.vaBits]
  rw [checked, hmode, hstate, hts, hplaced, checked]

theorem mapNext_checked (f : State → State) (n : Needs) (s : State) (go : Result) :
    mapNext f (checked n s go) = checked n s (mapNext f go) := by
  unfold checked
  split_ifs <;> rfl

/-- A store passes or fails alike, and its states correspond when those after the writes do. -/
theorem storeTo_of_sameChecks {s s' : State} (h : SameChecks s s') {f : State → State} (ss : Bool) (la : Word) (n : Nat)
    {ws ws' : List Host.Cell} {len : Nat} (hf : advance len (store s' ws') = f (advance len (store s ws))) :
    storeTo s' ss la n ws' len = mapNext f (storeTo s ss la n ws len) := by
  have hcanon : operandCanonical s' la n = operandCanonical s la n := by simp only [operandCanonical, h.vaBits]
  have haccess : accessAnswer s' la n = accessAnswer s la n := by simp only [accessAnswer, h.access]
  rcases storeTo_cases s ss la n ws len with ⟨hc, e⟩ | ⟨hc, c, a, ha, e⟩ | ⟨hc, ha, e⟩
  · rw [e, storeTo, hcanon, hc]; rfl
  · rw [e, storeTo, hcanon, hc, haccess, ha]; rfl
  · rw [e, storeTo_eq (hcanon.trans hc) (haccess.trans ha), hf]; rfl

theorem needs_of_sameChecks {s s' : State} (h : SameChecks s s') (i : Instr) : needs i s' = needs i s := by
  rw [needs, h.features, needs]

/-- Two runs of a register form. -/
theorem exec_reg_of_sameChecks {i : Instr} {d : BitVec 5} {s s' : State} {f : State → State} (hd : i.destReg = some d)
    (h : SameChecks s s')
    (hf : advance i.length (writeZmm s' d
        (maskedRegResult (readZmm s' d) (lane i s') i.elementBits (writesElement i s') i.mask.z)) =
      f (advance i.length (writeZmm s d
        (maskedRegResult (readZmm s d) (lane i s) i.elementBits (writesElement i s) i.mask.z)))) :
    exec i s' = mapNext f (exec i s) := by
  rw [exec_reg s hd, exec_reg s' hd, hf, needs_of_sameChecks h, checked_of_sameChecks h, mapNext_checked]
  rfl

/-- Two runs of a memory form whose operand lies at the same address. -/
theorem exec_mem_of_sameChecks {i : Instr} {m : MemOp} {s s' : State} {f : State → State} (hm : i.destMem = some m)
    (h : SameChecks s s') (haddr : destAddr i m s' = destAddr i m s)
    (hf : advance i.length (store s' (maskedWrites (destAddr i m s) (lane i s') i.elementBits (writesElement i s'))) =
      f (advance i.length (store s (maskedWrites (destAddr i m s) (lane i s) i.elementBits (writesElement i s))))) :
    exec i s' = mapNext f (exec i s) := by
  rw [exec_mem s hm, exec_mem s' hm, haddr, needs_of_sameChecks h, checked_of_sameChecks h, mapNext_checked,
    storeTo_of_sameChecks h _ _ _ hf]

/-! ## Opmask bits -/

theorem selectedBits_congr (E : Nat) {sel sel' : Nat → Bool} {n : Nat} (h : ∀ j < n, sel j = sel' j) :
    selectedBits E sel n = selectedBits E sel' n := by
  induction n with
  | zero => rfl
  | succ n ih => rw [selectedBits, selectedBits, ih fun j hj => h j (by omega), h n (by omega)]

/-- The result depends on the selection of the register's own elements. -/
theorem maskedRegResult_congr {W : Nat} (old : Zmm) (tmp : BitVec W) (E : Nat) {sel sel' : Nat → Bool} (z : Bool)
    (h : ∀ j < W / E, sel j = sel' j) : maskedRegResult old tmp E sel z = maskedRegResult old tmp E sel' z := by
  rw [maskedRegResult, selectedBits_congr E h, maskedRegResult]

/-- Settles O42: the opmask bits of the elements decide which elements are written, and nothing else reads them. -/
theorem higherMaskBitsAreIgnored : Obligations.HigherMaskBitsAreIgnored := by
  intro i s k hk
  have hsel : ∀ j < i.laneBits / i.elementBits, writesElement i { s with k := k } j = writesElement i s j := by
    intro j hj
    by_cases haaa : i.mask.aaa = 0
    · rw [writesElement, writesElement, haaa]; rfl
    · rw [writesElement, writesElement, hk haaa j hj]
  have hsame : SameChecks s { s with k := k } := ⟨rfl, rfl, rfl, rfl, rfl, rfl, rfl, rfl⟩
  rcases destReg_or_destMem i with ⟨d, hd⟩ | ⟨m, hm⟩
  · refine exec_reg_of_sameChecks hd hsame ?_
    rw [maskedRegResult_congr _ _ _ _ hsel]
    rfl
  · refine exec_mem_of_sameChecks hm hsame rfl ?_
    rw [maskedWrites_congr _ _ _ hsel]
    rfl

/-! ## Memory (20_memory.md R213) -/

/-- Byte writes leave a byte of any memory as it is, or give it one value in every memory. -/
theorem read_foldl_write_cases (ws : List Host.Cell) (a : Nat) :
    (∀ m : Memory, Memory.read (ws.foldl (fun m c => Memory.write m c.1 c.2) m) a = Memory.read m a) ∨
    ∃ b, ∀ m : Memory, Memory.read (ws.foldl (fun m c => Memory.write m c.1 c.2) m) a = some b := by
  induction ws with
  | nil => exact .inl fun _ => rfl
  | cons c ws ih =>
    rcases ih with ih | ⟨b, ih⟩
    · by_cases hc : a = c.1
      · subst hc
        exact .inr ⟨c.2, fun m => (ih _).trans (Memory.read_write_same m c.1 c.2)⟩
      · exact .inl fun m => (ih _).trans (Memory.read_write_ne m c.2 hc)
    · exact .inr ⟨b, fun m => ih _⟩

/-- An instruction performs the same byte writes over every memory. -/
theorem exec_withMem (i : Instr) (s : State) :
    ∃ ws : List Host.Cell, ∀ mem : Memory, exec i { s with mem := mem } =
      mapNext (fun t => { t with mem := ws.foldl (fun m c => Memory.write m c.1 c.2) mem }) (exec i s) := by
  have hsame (mem : Memory) : SameChecks s { s with mem := mem } := ⟨rfl, rfl, rfl, rfl, rfl, rfl, rfl, rfl⟩
  rcases destReg_or_destMem i with ⟨d, hd⟩ | ⟨m, hm⟩
  · exact ⟨[], fun mem => exec_reg_of_sameChecks hd (hsame mem) rfl⟩
  · exact ⟨maskedWrites (destAddr i m s) (lane i s) i.elementBits (writesElement i s),
      fun mem => exec_mem_of_sameChecks hm (hsame mem) rfl rfl⟩

/-- Settles O43: the writes do not depend on memory, and a run over the state's own memory is the run itself. -/
theorem noDataMemoryIsRead : Obligations.NoDataMemoryIsRead := by
  intro i s mem
  obtain ⟨ws, hws⟩ := exec_withMem i s
  refine ⟨fun t h => ?_, fun f h => ?_, fun r h => ?_⟩
  · have hself : mapNext _ (exec i s) = exec i s := (hws s.mem).symm
    rw [h] at hself
    have hmem : ws.foldl (fun m c => Memory.write m c.1 c.2) s.mem = t.mem :=
      congrArg State.mem (Host.Outcome.next.inj hself)
    refine ⟨{ t with mem := ws.foldl (fun m c => Memory.write m c.1 c.2) mem }, by rw [hws mem, h]; rfl, rfl, rfl,
      fun a => ?_⟩
    rw [← hmem]
    rcases read_foldl_write_cases ws a with hkept | ⟨b, hset⟩
    · exact .inl ⟨hkept _, hkept _⟩
    · exact .inr ((hset _).trans (hset _).symm)
  · rw [hws mem, h]; rfl
  · rw [hws mem, h]; rfl

/-! ## The source register -/

theorem laneStart_add_le {i : Instr} (h : i.row = 1 ∨ i.row = 2 ∨ i.row = 4) : i.laneStart + i.laneBits ≤ 256 := by
  rcases h with h | h | h <;> simp [Instr.laneStart, Instr.laneBits, h] <;> omega

theorem maskedRegResult_congr_old {W : Nat} {old old' : Zmm} (tmp : BitVec W) {E : Nat} (sel : Nat → Bool) (z : Bool)
    (hE : 0 < E) (hdvd : W / E * E = W) (hW : W ≤ 512) (h : ∀ b < W, old.getLsbD b = old'.getLsbD b) :
    maskedRegResult old tmp E sel z = maskedRegResult old' tmp E sel z := by
  apply BitVec.eq_of_getLsbD_eq
  intro b _
  rw [getLsbD_maskedRegResult _ _ _ _ _ _ hE hdvd hW, getLsbD_maskedRegResult _ _ _ _ _ _ hE hdvd hW]
  by_cases hb : b < W
  · rw [h b hb]
  · rw [decide_eq_false hb, Bool.false_and, Bool.false_and]

theorem getLsbD_of_extractLsb'_eq {v v' : Zmm} {n b : Nat} (h : v.extractLsb' 0 n = v'.extractLsb' 0 n) (hb : b < n) :
    v.getLsbD b = v'.getLsbD b := by
  simpa [hb] using congrArg (·.getLsbD b) h

theorem writeZmm_writeZmm_same (s : State) (r : BitVec 5) (v v' : Zmm) :
    writeZmm (writeZmm s r v) r v' = writeZmm s r v' := by
  simp [writeZmm]

theorem writeZmm_comm (s : State) {r r' : BitVec 5} (v v' : Zmm) (h : r ≠ r') :
    writeZmm (writeZmm s r v) r' v' = writeZmm (writeZmm s r' v') r v := by
  have hne : r.toNat ≠ r'.toNat := fun e => h (BitVec.eq_of_toNat_eq e)
  simp only [writeZmm, Vector.set_comm _ _ hne]

theorem destReg_of_destMem {i : Instr} {m : MemOp} (hm : i.destMem = some m) : i.destReg = none := by
  cases i <;> rename_i dst _ _ <;> cases dst <;> simp [Instr.destMem, Instr.destReg] at hm ⊢

/-- Settles O44: the lane and, under merging, the old elements all lie below bit 256. -/
theorem upperSourceBitsAreIgnored : Obligations.UpperSourceBitsAreIgnored := by
  intro i s v hrow hv
  have hlow := laneStart_add_le hrow
  have hsame : SameChecks s (writeZmm s i.srcReg v) := ⟨rfl, rfl, rfl, rfl, rfl, rfl, rfl, rfl⟩
  have hlane : lane i (writeZmm s i.srcReg v) = lane i s := by
    apply BitVec.eq_of_getLsbD_eq
    intro b hb
    rw [getLsbD_lane _ hb, getLsbD_lane _ hb, readZmm_writeZmm_same]
    exact getLsbD_of_extractLsb'_eq hv (by omega)
  rcases destReg_or_destMem i with ⟨d, hd⟩ | ⟨m, hm⟩
  · refine exec_reg_of_sameChecks hd hsame ?_
    rw [hlane, hd]
    by_cases hds : d = i.srcReg
    · subst hds
      rw [if_pos rfl, readZmm_writeZmm_same, writeZmm_writeZmm_same, maskedRegResult_congr_old (lane i s) _ _
        (elementBits_pos i) (laneBits_div_mul_elementBits i) (laneBits_le i)
        fun b hb => getLsbD_of_extractLsb'_eq hv (by omega)]
      rfl
    · rw [if_neg (by simpa using hds), readZmm_writeZmm_ne s v hds, writeZmm_comm s _ _ (Ne.symm hds)]
      rfl
  · have hno : i.destReg ≠ some i.srcReg := by
      rw [destReg_of_destMem hm]
      exact Option.some_ne_none _ |>.symm
    refine exec_mem_of_sameChecks hm hsame rfl ?_
    rw [hlane, if_neg hno]
    rfl

/-! ## The immediate -/

/-- Settles O45: the immediate is read through the number of the lane alone. -/
theorem ignoredImmediateBits : Obligations.IgnoredImmediateBits := by
  intro i imm s h
  cases i with
  | vextractf128 pre dst src imm' =>
    have hbits : imm.extractLsb' 0 1 = imm'.extractLsb' 0 1 := h
    exact ⟨by simp only [Instr.withImm, exec, execVextractf128, select128_readYmm, ← imm_bit, hbits], rfl⟩
  | vextractf32x4Ymm pre wm dst src imm' =>
    have hbits : imm.extractLsb' 0 1 = imm'.extractLsb' 0 1 := h
    exact ⟨by simp only [Instr.withImm, exec, execVextractf32x4Ymm, select128_readYmm, ← imm_bit, hbits], rfl⟩
  | vextractf32x4Zmm pre wm dst src imm' =>
    have hbits : imm.extractLsb' 0 2 = imm'.extractLsb' 0 2 := h
    exact ⟨by simp only [Instr.withImm, exec, execVextractf32x4Zmm, select128_readZmm, ← imm_bits, hbits], rfl⟩
  | vextractf64x2Ymm pre wm dst src imm' =>
    have hbits : imm.extractLsb' 0 1 = imm'.extractLsb' 0 1 := h
    exact ⟨by simp only [Instr.withImm, exec, execVextractf64x2Ymm, select128_readYmm, ← imm_bit, hbits], rfl⟩
  | vextractf64x2Zmm pre wm dst src imm' =>
    have hbits : imm.extractLsb' 0 2 = imm'.extractLsb' 0 2 := h
    exact ⟨by simp only [Instr.withImm, exec, execVextractf64x2Zmm, select128_readZmm, ← imm_bits, hbits], rfl⟩
  | vextractf32x8 pre wm dst src imm' =>
    have hbits : imm.extractLsb' 0 1 = imm'.extractLsb' 0 1 := h
    exact ⟨by simp only [Instr.withImm, exec, execVextractf32x8, select256_readZmm, ← imm_bit, hbits], rfl⟩
  | vextractf64x4 pre wm dst src imm' =>
    have hbits : imm.extractLsb' 0 1 = imm'.extractLsb' 0 1 := h
    exact ⟨by simp only [Instr.withImm, exec, execVextractf64x4, select256_readZmm, ← imm_bit, hbits], rfl⟩

/-! ## Forms that agree without a writemask -/

theorem maskedWrites_unmasked (la : Word) (tmp : BitVec 128) :
    maskedWrites la tmp 64 (fun _ => true) = maskedWrites la tmp 32 (fun _ => true) := by
  have h64 := flatMap_byteWrites la tmp 8 2
  rw [maskedWrites_all]
  simpa [maskedWrites] using h64

/-- Without a writemask the element size does not matter. -/
theorem writeEvex_unmasked (pre : List LegacyPrefix) (dst : Dst 5) (lane : BitVec 128) (len : Nat) (s : State) :
    writeEvex 64 pre { aaa := 0, z := false } dst lane len s =
      writeEvex 32 pre { aaa := 0, z := false } dst lane len s := by
  cases dst with
  | reg d =>
    simp only [writeEvex, selected_none]
    rw [maskedRegResult_all _ _ 64 _ (by decide) (by decide) (by decide),
      maskedRegResult_all _ _ 32 _ (by decide) (by decide) (by decide)]
  | mem m => simp only [writeEvex, selected_none, maskedWrites_unmasked]

/-- Settles O46: with every element selected, the masked result and the masked writes are the lane itself. -/
theorem unmaskedFormsAgree : Obligations.UnmaskedFormsAgree := by
  intro s pre dst src imm hfeatures
  refine ⟨?_, ?_, fun d4 src4 t u ht hu => ?_⟩
  · simp only [exec, execVextractf64x2Ymm, execVextractf32x4Ymm, writeEvex_unmasked, hfeatures]
  · simp only [exec, execVextractf64x2Zmm, execVextractf32x4Zmm, writeEvex_unmasked, hfeatures]
  · rw [exec_reg_next rfl ht, exec_reg_next rfl hu]
    rfl

end Sys2Proof.Machine
end

section
/-! Addresses: the effective address of each operand shape, its 32-bit form under byte 67, and the segment base
(20_memory.md R221 to R224). -/

namespace Sys2Proof.Machine

theorem addr32_iff {pre : List LegacyPrefix} : addr32 pre = true ↔ LegacyPrefix.addrSize ∈ pre := by
  rw [addr32, List.contains_iff_mem]

/-- Scaling the index is multiplying it. -/
theorem shiftLeft_eq_mul (a : Word) (n : Nat) : a <<< n = a * BitVec.ofNat 64 (2 ^ n) := by
  apply BitVec.eq_of_toNat_eq
  simp [BitVec.toNat_shiftLeft, Nat.shiftLeft_eq, BitVec.toNat_mul]

/-- Settles O55: without byte 67 the registers and the sum are 64 bits wide. -/
theorem effectiveAddressForms : Obligations.EffectiveAddressForms := by
  intro s pre N len b x scale d8 d hno index
  have ha : addr32 pre = false := by rw [← Bool.not_eq_true, addr32_iff]; exact hno
  have hindex : indexValue s false x scale = index := by
    simp only [indexValue, addrReg, shiftLeft_eq_mul, index, Bool.false_eq_true, if_false]
  simp only [effAddr, ha, hindex, addrSum, addrReg, dispValue, Bool.false_eq_true, if_false, add_zero, and_self]

/-- The low half of a register, under byte 67 or not. -/
theorem setWidth_addrReg (s : State) (a32 : Bool) (r : BitVec 4) :
    (addrReg s a32 r).setWidth 32 = (readGpr s r).setWidth 32 := by
  cases a32
  · rfl
  · rw [addrReg, if_pos rfl, BitVec.setWidth_setWidth_of_le _ (by decide), BitVec.setWidth_eq]

theorem setWidth_addrSum (a32 : Bool) (a : Word) : (addrSum a32 a).setWidth 32 = a.setWidth 32 := by
  cases a32
  · rfl
  · rw [addrSum, if_pos rfl, BitVec.setWidth_setWidth_of_le _ (by decide), BitVec.setWidth_eq]

section
variable {s s' : State} (hregs : ∀ r, (readGpr s' r).setWidth 32 = (readGpr s r).setWidth 32)
include hregs

theorem setWidth_indexValue (a32 a32' : Bool) (index : BitVec 4) (scale : BitVec 2) :
    (indexValue s' a32' index scale).setWidth 32 = (indexValue s a32 index scale).setWidth 32 := by
  unfold indexValue
  split
  · rfl
  · rw [BitVec.setWidth_shiftLeft_of_le (by decide), BitVec.setWidth_shiftLeft_of_le (by decide), setWidth_addrReg,
      setWidth_addrReg, hregs]

/-- The low half of an effective address depends on the low halves of the registers and of `rip` alone, and not on byte
67. -/
theorem setWidth_effAddr (hrip : s'.rip.setWidth 32 = s.rip.setWidth 32) (pre pre' : List LegacyPrefix) (N len : Nat)
    (m : MemOp) : (effAddr s' pre' N len m).setWidth 32 = (effAddr s pre N len m).setWidth 32 := by
  have hadd (x y : Word) : (x + y).setWidth 32 = x.setWidth 32 + y.setWidth 32 := BitVec.setWidth_add x y (by decide)
  cases m <;> simp only [effAddr, setWidth_addrSum, hadd, setWidth_addrReg, hregs, hrip,
    setWidth_indexValue hregs (addr32 pre) (addr32 pre')]

end

/-- Under byte 67 an effective address is its own low half. -/
theorem effAddr_eq_setWidth {s : State} {pre : List LegacyPrefix} {N len : Nat} {m : MemOp} (h : addr32 pre = true) :
    effAddr s pre N len m = ((effAddr s pre N len m).setWidth 32).setWidth 64 := by
  have hsum (a : Word) : addrSum true a = ((addrSum true a).setWidth 32).setWidth 64 := by
    rw [setWidth_addrSum]; rfl
  simp only [effAddr, h]
  exact hsum _

/-- Settles O56: an address of 32 bits is its own low half, which is that of the 64-bit sum. -/
theorem addressSizePrefix : Obligations.AddressSizePrefix := by
  intro s pre N len m h
  have ha := addr32_iff.2 h
  refine ⟨?_, fun s' hregs hrip => ?_⟩
  · rw [effAddr_eq_setWidth ha, setWidth_effAddr (fun _ => rfl) rfl [] pre]
  · rw [effAddr_eq_setWidth ha, setWidth_effAddr hregs hrip pre pre, ← effAddr_eq_setWidth ha]

theorem segOverride_of_only {post : List LegacyPrefix} (h : ∀ q ∈ post, q = .addrSize) : segOverride post = none := by
  rw [segOverride, List.getLast?_eq_none_iff, List.filter_eq_nil_iff]
  intro q hq
  rw [h q hq]
  decide

/-- The last segment override, with only bytes 67 after it. -/
theorem segOverride_append {pre post : List LegacyPrefix} {p : LegacyPrefix} (h : ∀ q ∈ post, q = .addrSize)
    (hp : p ≠ .addrSize) : segOverride (pre ++ p :: post) = some p := by
  have hpost : post.filter (fun q => q != .addrSize) = [] := List.getLast?_eq_none_iff.1 (segOverride_of_only h)
  rw [segOverride, List.filter_append, List.filter_cons_of_pos (by simpa using hp), hpost, List.getLast?_concat]

/-- Settles O57: the segment base is read off the last override. -/
theorem segmentBaseOfLastPrefix : Obligations.SegmentBaseOfLastPrefix := by
  intro s pre post p hpost
  refine ⟨?_, ?_, fun hfs hgs hsize => ?_, ?_, fun _ _ _ => rfl, fun _ _ => rfl⟩
  · rw [segBase, segOverride_append hpost (by decide)]
  · rw [segBase, segOverride_append hpost (by decide)]
  · rw [segBase, segOverride_append hpost hsize]
    cases p with
    | fs => exact absurd rfl hfs
    | gs => exact absurd rfl hgs
    | es | cs | ss | ds | addrSize => rfl
  · rw [segBase, segOverride_of_only hpost]

end Sys2Proof.Machine
end
